-- ==== Sys2Proof/Word.lean ====
section
/-! DEFINITION. The word types of the real48 codec: every value at its interface is an unsigned bit
vector of a stated width (spec/00_scope.md R8, R9). -/

namespace Sys2Proof

/-- One byte of the 6-byte packed form (20_memory.md R40). -/
abbrev Byte := BitVec 8

/-- A packed word `p[47:0]` (30_encoding.md R60). -/
abbrev Packed := BitVec 48

/-- An IEEE-754 double `d[63:0]` (30_encoding.md R65). -/
abbrev Binary64 := BitVec 64

/-- An IEEE-754 float `f[31:0]` (30_encoding.md R66). -/
abbrev Binary32 := BitVec 32

/-- A request `req[65:0]` (30_encoding.md R69). -/
abbrev Request := BitVec 66

end Sys2Proof
end

