-- ==== Sys2Proof/Syntax.lean ====
section
/-! DEFINITION. The four operations of the block (30_encoding.md R68), one constructor per row of
`spec/opcode_table.json`. An operation carries exactly the operand bits it uses (R69): the ignored
bits of the request are not part of it. -/

namespace Sys2Proof

inductive Instr where
  /-- `ENC_F64` (R101): `operand[63:0]` is the double `d`. -/
  | encF64 (d : Binary64)
  /-- `ENC_F32` (R102): `operand[31:0]` is the float `x`. -/
  | encF32 (x : Binary32)
  /-- `DEC_F64` (R131): `operand[47:0]` is the packed word `p`. -/
  | decF64 (p : Packed)
  /-- `DEC_F32` (R132): `operand[47:0]` is the packed word `p`. -/
  | decF32 (p : Packed)
deriving DecidableEq, Repr

end Sys2Proof
end

