-- ==== Sys2Proof/WellFormed.lean ====
section
/-! DEFINITION. Well-formedness. No operation code and no operand pattern is illegal (30_encoding.md
R75), so every term of `Instr` is well formed; what can be ill formed is a number offered as a
request, when it has a bit above bit 65 (R76: "There is one request length (66 bits) and one
format"). -/

namespace Sys2Proof

/-- R76: the one request length in bits. -/
def requestWidth : Nat := 66

/-- R76: a number is a request word when it has no bit above bit 65. -/
def requestWellFormed (w : Nat) : Bool := decide (w < 2 ^ requestWidth)

/-- R75: every operand pattern of every operation is legal. -/
def Instr.wellFormed : Instr → Bool
  | .encF64 _ => true
  | .encF32 _ => true
  | .decF64 _ => true
  | .decF32 _ => true

end Sys2Proof
end

