-- ==== Sys2Proof/Decode.lean ====
section
/-! DEFINITION. Decoding a request into its operation and encoding an operation as a request
(30_encoding.md R68, R69, R75, R76; 92_eei_decisions.md D4, D7). -/

namespace Sys2Proof

/-- R69: `op = req[65:64]`. -/
def opOf (r : Request) : BitVec 2 := r.extractLsb' 64 2

/-- R69: `operand = req[63:0]`. -/
def operandOf (r : Request) : BitVec 64 := r.extractLsb' 0 64

/-- R69: `req[65:0]` is `op[1:0]` above `operand[63:0]`. -/
def requestOf (op : BitVec 2) (operand : BitVec 64) : Request := op ++ operand

/-- R69: the float that `ENC_F32` takes, `operand[31:0]`; `operand[63:32]` is ignored. -/
def floatOperand (operand : BitVec 64) : Binary32 := operand.extractLsb' 0 32

/-- R69, R43: the packed word that the decoder takes, `operand[47:0]`; `operand[63:48]` is
ignored. -/
def packedOperand (operand : BitVec 64) : Packed := operand.extractLsb' 0 48

/-- R68: `op[1]` selects the unit (0 encoder, 1 decoder) and `op[0]` the IEEE format (0 double,
1 float). All four codes are assigned (R75), so every request decodes. -/
def decode (r : Request) : Instr :=
  let operand := operandOf r
  match (opOf r).getLsbD 1, (opOf r).getLsbD 0 with
  | false, false => .encF64 operand
  | false, true  => .encF32 (floatOperand operand)
  | true,  false => .decF64 (packedOperand operand)
  | true,  true  => .decF32 (packedOperand operand)

/-- Why a number is no request. -/
inductive DecodeError where
  /-- A bit above bit 65 is set: the one request length is 66 bits (R76). -/
  | notARequestWord
deriving DecidableEq, Repr

/-- Decoding of any number: the one rejection there is, by name. -/
def decodeBits (w : Nat) : Except DecodeError Instr :=
  if requestWellFormed w then .ok (decode (BitVec.ofNat 66 w)) else .error .notARequestWord

/-- The host's view of the decoder: the operation read from a request whose bits are `w`, bit 0 the
least significant (the spec's own numbering, R8, R69). The request has one length, so `nbits` says
nothing more. -/
def decodeTableWord (_nbits w : Nat) : Option Instr :=
  match decodeBits w with
  | .ok i    => some i
  | .error _ => none

/-- R68: the operation code `op[1:0]` of an operation. -/
def opCode : Instr → BitVec 2
  | .encF64 _ => 0b00#2
  | .encF32 _ => 0b01#2
  | .decF64 _ => 0b10#2
  | .decF32 _ => 0b11#2

/-- R69: the 64 operand bits of an operation, its ignored bits sent as zero (95_test_vectors.md §6:
"Ignored operand bits are sent as zero"). -/
def operandBits : Instr → BitVec 64
  | .encF64 d => d
  | .encF32 x => x.setWidth 64
  | .decF64 p => p.setWidth 64
  | .decF32 p => p.setWidth 64

/-- The request of an operation (R68, R69). -/
def encode (i : Instr) : Request := requestOf (opCode i) (operandBits i)

end Sys2Proof
end

