-- ==== Sys2Proof/Config.lean ====
section
/-! DEFINITION. The one thing the spec leaves to an implementation (00_scope.md R6: "with the one
exception of the result data of a failed operation"). -/

namespace Sys2Proof.Config

/-- `ERR_RESULT`: what the 64 `result` lines carry when `status` is not `00`, a free function of the
request (92_eei_decisions.md D6, OPEN; 93_implementation_defined.md U1). It has no body, so no proof
can see a value of it. No abstract response reads it; only the wire-level views of
`Machine/Ports.lean` do. Log entry 2. -/
opaque errResult : Request → BitVec 64

end Sys2Proof.Config
end

