-- ==== Sys2Proof/Machine/Params.lean ====
section
/-! DEFINITION. The fixed parameters of the block under the spec's names (00_scope.md R6). -/

namespace Sys2Proof.Machine

/-- Width of the packed word. -/
@[simp] abbrev PW : Nat := 48
/-- Bytes of the packed form. -/
@[simp] abbrev PBYTES : Nat := 6
/-- Width of the packed exponent field. -/
@[simp] abbrev PEXP_W : Nat := 8
/-- Width of the packed mantissa field. -/
@[simp] abbrev PMAN_W : Nat := 39
/-- Width of the packed sign field. -/
@[simp] abbrev PSIGN_W : Nat := 1
/-- Packed exponent = unbiased binary exponent + 129. -/
@[simp] abbrev PBIAS : Int := 129
/-- Width of a double's biased exponent. -/
@[simp] abbrev F64_EXP_W : Nat := 11
/-- Width of a double's mantissa. -/
@[simp] abbrev F64_MAN_W : Nat := 52
/-- Exponent bias of a double. -/
@[simp] abbrev F64_BIAS : Int := 1023
/-- Width of a float's biased exponent. -/
@[simp] abbrev F32_EXP_W : Nat := 8
/-- Width of a float's mantissa. -/
@[simp] abbrev F32_MAN_W : Nat := 23
/-- Exponent bias of a float. -/
@[simp] abbrev F32_BIAS : Int := 127
/-- Packed exponent = double biased exponent - 894. -/
@[simp] abbrev REBIAS64 : Int := 894
/-- Packed exponent = float biased exponent + 2. -/
@[simp] abbrev REBIAS32 : Int := 2
/-- Bits dropped from a double mantissa. -/
@[simp] abbrev SHIFT64 : Nat := 13
/-- Added before the 13-bit right shift. -/
@[simp] abbrev ROUND64 : Nat := 2 ^ 12
/-- Bits between a float mantissa and the packed mantissa. -/
@[simp] abbrev SHIFT32 : Nat := 16
/-- Added before the 16-bit right shift in `DEC_F32` (92_eei_decisions.md D23). -/
@[simp] abbrev ROUND32 : Nat := 2 ^ 15
/-- Largest packed exponent. -/
@[simp] abbrev PEXP_MAX : Int := 255
/-- A float biased exponent of 255 or more is `Overflow` in `DEC_F32`. -/
@[simp] abbrev F32_EXP_LIMIT : Int := 255

end Sys2Proof.Machine
end

