-- ==== Sys2Proof/Machine/State.lean ====
section
/-! DEFINITION. The state. The block itself holds none (10_state.md R20 to R28: "A model's machine
state for this block is the empty record"). What `State` holds is the traffic at the interface that a
step needs (log entry 1): the requests a requester has presented, the responses each unit has given,
and the optional reset input (70_reset_and_hazards.md R240). -/

namespace Sys2Proof.Machine

/-- 60_exceptions.md R200: the three error kinds. They are values of a response, no fault of the
machine (R207). -/
inductive ErrorKind where
  /-- "source value is NaN or infinite; cannot be packed". -/
  | unrepresentable
  /-- The magnitude, after rebiasing, is too small for a normalised field of the target. -/
  | underflow
  /-- "rebiased exponent exceeds the field's maximum, including overflow induced by mantissa-rounding
  carry". -/
  | overflow
deriving DecidableEq, Repr

/-- 00_scope.md R11: an operation returns exactly one of `ok(v)` and a failure of one kind; there is no
value in the failure arm (30_encoding.md R73). -/
inductive Result (α : Type) where
  | ok (v : α)
  | error (k : ErrorKind)
deriving DecidableEq, Repr

/-- A response whose value has `w` bits. -/
abbrev Response (w : Nat) := Result (BitVec w)

/-- 41_decoder.md R133: the two classes of a packed word. -/
inductive PackedClass where
  | zero
  | normal
deriving DecidableEq, Repr

/-- The result of a decoder operation, at the width of its format (R11, R68). -/
inductive DecResult where
  /-- `DEC_F64`: a double. -/
  | f64 (r : Response 64)
  /-- `DEC_F32`: a float. -/
  | f32 (r : Response 32)
deriving DecidableEq, Repr

/-- What the decoder gives for one request: its result, and beside it the side outputs `dec_sign`,
`dec_exp`, `dec_man` and `dec_class`, given for every operand of either operation whatever the status
(41_decoder.md R130, R133; 92_eei_decisions.md D3, D16). -/
structure DecResponse where
  result : DecResult
  sign : BitVec 1
  exp : BitVec 8
  man : BitVec 39
  cls : PackedClass
deriving DecidableEq, Repr

/-- Reasons for which a step stops with a fault. There is none: "Nothing in the block is `fault`,
`stuck` or `refuse`: every request has a defined response" (93_implementation_defined.md §1;
60_exceptions.md R207). -/
inductive Fault
deriving DecidableEq, Repr

/-- Reasons for which a step is refused. -/
inductive Refusal where
  /-- An operation that has no meaning in this model yet (raised by an arm of `exec` only; no arm
  does). Safe: the model stops where the hardware goes on. -/
  | notModelled (mnemonic : String)
deriving DecidableEq, Repr

/-- The machine between two operations: traffic at the interface only, no state of the block (R20). -/
structure State where
  /-- Requests presented by the requester and not yet performed, in the order presented (R22). -/
  requests : List Request
  /-- The responses of `real48_encoder` so far, oldest first (R245). -/
  encResponses : List (Response 48)
  /-- The responses of `real48_decoder` so far, oldest first (R245). No order is kept between the two
  lists: "no order is promised" between the units. -/
  decResponses : List DecResponse
  /-- The optional reset input is asserted (R240). -/
  resetAsserted : Bool
deriving DecidableEq, Repr

/-- What one step answers. -/
abbrev StepOutcome := Host.Outcome State Fault Refusal

/-- R28, R240, R241: after reset there is no state to have a value; no request has been made, no
response given, and the reset input is released. -/
def State.reset : State where
  requests := []
  encResponses := []
  decResponses := []
  resetAsserted := false

end Sys2Proof.Machine
end

