-- ==== Sys2Proof/Machine/Operands.lean ====
section
/-! DEFINITION. The three data formats: how a packed word, a double and a float are cut into sign,
exponent and mantissa and put together again (30_encoding.md R60, R65, R66, R74; 40_encoder.md R100;
41_decoder.md R130), and the classes of an IEEE operand (R67). Every field is a contiguous slice read
as an unsigned integer. -/

namespace Sys2Proof.Machine

/-- R60: `pe = p[7:0]`. -/
def Packed.exp (p : Packed) : BitVec 8 := p.extractLsb' 0 8

/-- R60: `pm = p[46:8]`. -/
def Packed.man (p : Packed) : BitVec 39 := p.extractLsb' 8 39

/-- R60: `ps = p[47]`. -/
def Packed.sign (p : Packed) : BitVec 1 := p.extractLsb' 47 1

/-- R60: the word with the fields `ps`, `pm`, `pe`. -/
def Packed.ofFields (s : BitVec 1) (m : BitVec 39) (e : BitVec 8) : Packed := s ++ m ++ e

/-- R100: `pack(s, e, m)`, the sign, `m[38:0]` and `e[7:0]`; called with `e` in 0 to 255 and `m` in 0 to
2^39 - 1 only, so that no bit is cut off. -/
def pack (s : BitVec 1) (e : Int) (m : Nat) : Packed :=
  Packed.ofFields s (BitVec.ofNat 39 m) (BitVec.ofInt 8 e)

/-- R130: `unpack(p) = (ps, pe, pm)`. -/
def unpack (p : Packed) : BitVec 1 × BitVec 8 × BitVec 39 :=
  (Packed.sign p, Packed.exp p, Packed.man p)

/-- R63: the canonical zero. -/
def canonicalZero : Packed := 0x000000000000#48

/-- R65: the sign of a double, `d[63]`. -/
def F64.sign (d : Binary64) : BitVec 1 := d.extractLsb' 63 1

/-- R65: the biased exponent of a double, `d[62:52]`. -/
def F64.exp (d : Binary64) : BitVec 11 := d.extractLsb' 52 11

/-- R65: the mantissa of a double, `d[51:0]`. -/
def F64.man (d : Binary64) : BitVec 52 := d.extractLsb' 0 52

/-- R131: the double with sign `s`, exponent bits `e[10:0]` and mantissa bits `f[51:0]`. -/
def F64.assemble (s : BitVec 1) (e : Int) (f : Nat) : Binary64 :=
  s ++ BitVec.ofInt 11 e ++ BitVec.ofNat 52 f

/-- R66: the sign of a float, `f[31]`. -/
def F32.sign (x : Binary32) : BitVec 1 := x.extractLsb' 31 1

/-- R66: the biased exponent of a float, `f[30:23]`. -/
def F32.exp (x : Binary32) : BitVec 8 := x.extractLsb' 23 8

/-- R66: the mantissa of a float, `f[22:0]`. -/
def F32.man (x : Binary32) : BitVec 23 := x.extractLsb' 0 23

/-- R132: the float with sign `s`, exponent bits `e[7:0]` and mantissa bits `m[22:0]`. -/
def F32.assemble (s : BitVec 1) (e : Int) (m : Nat) : Binary32 :=
  s ++ BitVec.ofInt 8 e ++ BitVec.ofNat 23 m

/-- R67: the classes of an IEEE operand that the encoder tells apart. -/
inductive IeeeClass where
  | nonFinite
  | zeroOrSubnormal
  | normal
deriving DecidableEq, Repr

/-- R67: the class by the exponent field alone, `allOnes` being that field with every bit set. NaN and
infinity, quiet and signalling NaN and NaN payloads are not told apart. -/
def ieeeClass (allOnes e : Nat) : IeeeClass :=
  if e = allOnes then .nonFinite
  else if e = 0 then .zeroOrSubnormal
  else .normal

/-- R67 for a double: all ones is 2047. -/
def F64.cls (d : Binary64) : IeeeClass := ieeeClass 2047 (F64.exp d).toNat

/-- R67 for a float: all ones is 255. -/
def F32.cls (x : Binary32) : IeeeClass := ieeeClass 255 (F32.exp x).toNat

end Sys2Proof.Machine
end

