-- ==== Sys2Proof/Machine/Flags.lean ====
section
/-! DEFINITION. The block has no flag and no condition code (10_state.md R23). What it reports stands in
the response: the status code (30_encoding.md R71, 60_exceptions.md R201) and the decoder's one-bit class
output (41_decoder.md R133). -/

namespace Sys2Proof.Machine

/-- R71, R201: the status code of an error kind. -/
def ErrorKind.code : ErrorKind → BitVec 2
  | .unrepresentable => 0b01#2
  | .underflow       => 0b10#2
  | .overflow        => 0b11#2

/-- R71: `status[1:0]` of a response; `00` is `OK`. -/
def Result.status {α : Type} : Result α → BitVec 2
  | .ok _    => 0b00#2
  | .error k => k.code

/-- R133: `classify(p)` reads the 8 exponent bits and nothing else. -/
def classify (p : Packed) : PackedClass :=
  if Packed.exp p = 0#8 then .zero else .normal

/-- R133: the wire `dec_class`, 0 for `Zero` and 1 for `Normal`. -/
def PackedClass.bit : PackedClass → BitVec 1
  | .zero   => 0#1
  | .normal => 1#1

end Sys2Proof.Machine
end

