-- ==== Sys2Proof/Machine/Ops.lean ====
section
/-! DEFINITION. The operations shared by the meanings: the exact rounding and range arithmetic, the byte
form of a packed word, taking a request and giving a response. There is no trap to take and none to
return from (60_exceptions.md R207, R208): a failure is a response like any other. -/

namespace Sys2Proof.Machine

/-- The value of a response changed, its failure kept. -/
def Result.map {α β : Type} (g : α → β) : Result α → Result β
  | .ok v    => .ok (g v)
  | .error k => .error k

/-! ## Arithmetic (exact integers: 00_scope.md R9) -/

/-- R101 step 5, R132: round half up on the magnitude, `(f + half) >> drop`, floor division by
`2^drop`. -/
def roundHalfUp (half drop f : Nat) : Nat := (f + half) >>> drop

/-- R101 step 4, R102, R132: the range test on a rebiased exponent against the largest exponent of the
target. -/
def checkRange (limit e : Int) : Result Int :=
  if e ≤ 0 then .error .underflow
  else if e > limit then .error .overflow
  else .ok e

/-- R101 step 5, R132: what follows rounding. A mantissa that reached `2^width` is a carry: the mantissa
becomes 0, the exponent goes up by one and is tested against `limit` again. -/
def carryInto (limit : Int) (width : Nat) (e : Int) (m : Nat) : Result (Int × Nat) :=
  if m = 2 ^ width then
    if e + 1 > limit then .error .overflow else .ok (e + 1, 0)
  else .ok (e, m)

/-- R101 steps 4 and 5, R132: range test, then rounding, then carry, in that order (60_exceptions.md
R204). -/
def narrow (limit : Int) (width half drop : Nat) (e : Int) (f : Nat) : Result (Int × Nat) :=
  match checkRange limit e with
  | .error k => .error k
  | .ok e    => carryInto limit width e (roundHalfUp half drop f)

/-! ## The 6-byte packed form (20_memory.md R40 to R43, R46) -/

/-- R40: the packed form, `b0` the byte at the lowest address. -/
structure PackedBytes where
  b0 : Byte
  b1 : Byte
  b2 : Byte
  b3 : Byte
  b4 : Byte
  b5 : Byte
deriving DecidableEq, Repr

/-- R40: byte `i` of the packed form is `p[8i+7 : 8i]`. -/
def packedByte (p : Packed) (i : Nat) : Byte := p.extractLsb' (8 * i) 8

/-- R42: `bytes_of(p)`. -/
def bytesOf (p : Packed) : PackedBytes where
  b0 := packedByte p 0
  b1 := packedByte p 1
  b2 := packedByte p 2
  b3 := packedByte p 3
  b4 := packedByte p 4
  b5 := packedByte p 5

/-- R42: `word_of(b0, ..., b5)`, `b5` most significant. -/
def wordOf (b : PackedBytes) : Packed := b.b5 ++ b.b4 ++ b.b3 ++ b.b2 ++ b.b1 ++ b.b0

/-- R40: the bytes in address order. -/
def PackedBytes.toList (b : PackedBytes) : List Byte := [b.b0, b.b1, b.b2, b.b3, b.b4, b.b5]

/-- R46: an array of packed values as a requester stores it, six bytes each, back to back. -/
def packedArray (ps : List Packed) : List Byte := ps.flatMap fun p => (bytesOf p).toList

/-! ## Requests and responses -/

/-- The next operation of the machine: the oldest request presented, with the machine after taking it.
None while the reset input is asserted ("the block accepts no request and gives no response",
70_reset_and_hazards.md R240) and none while no request is presented (log entry 3). -/
def takeRequest (s : State) : Option (Request × State) :=
  if s.resetAsserted then none
  else match s.requests with
    | []        => none
    | r :: rest => some (r, { s with requests := rest })

/-- R70, R245: `real48_encoder` gives its response. -/
def State.answerEnc (s : State) (a : Response 48) : State :=
  { s with encResponses := s.encResponses ++ [a] }

/-- R70, R245: `real48_decoder` gives its response. -/
def State.answerDec (s : State) (a : DecResponse) : State :=
  { s with decResponses := s.decResponses ++ [a] }

/-- The requester presents one more request, after those waiting. -/
def State.present (s : State) (r : Request) : State :=
  { s with requests := s.requests ++ [r] }

end Sys2Proof.Machine
end

