-- ==== Sys2Proof/Machine/Decoder.lean ====
section
/-! DEFINITION. The unit `real48_decoder` (41_decoder.md): `DEC_F64`, `DEC_F32` and the side outputs. -/

namespace Sys2Proof.Machine

/-- R131: `DEC_F64`, decode to a double. It never fails. -/
def decodeF64 (p : Packed) : Response 64 :=
  let (ps, pe, pm) := unpack p
  if pe = 0#8 then .ok 0x0000000000000000#64
  else .ok (F64.assemble ps ((pe.toNat : Int) - PBIAS + F64_BIAS) (pm.toNat <<< SHIFT64))

/-- R132: `DEC_F32`, decode to a float. The largest exponent that is no `Overflow` is
`F32_EXP_LIMIT - 1`. The two `Overflow` tests inside `narrow` cannot fire (R134); the spec keeps them. -/
def decodeF32 (p : Packed) : Response 32 :=
  let (ps, pe, pm) := unpack p
  if pe = 0#8 then .ok 0x00000000#32
  else
    (narrow (F32_EXP_LIMIT - 1) F32_MAN_W ROUND32 SHIFT32 ((pe.toNat : Int) - REBIAS32) pm.toNat).map
      fun (e, m) => F32.assemble ps e m

/-- R130, R133, D16: a result with the side outputs of its operand, the raw fields and the class, whatever
the status. -/
def decResponse (p : Packed) (r : DecResult) : DecResponse where
  result := r
  sign := Packed.sign p
  exp := Packed.exp p
  man := Packed.man p
  cls := classify p

/-- The meaning of `DEC_F64`: the decoder answers, nothing else changes (R20). -/
def execDecF64 (p : Packed) (s : State) : StepOutcome :=
  .next (s.answerDec (decResponse p (.f64 (decodeF64 p))))

/-- The meaning of `DEC_F32`: the decoder answers, nothing else changes (R20). -/
def execDecF32 (p : Packed) (s : State) : StepOutcome :=
  .next (s.answerDec (decResponse p (.f32 (decodeF32 p))))

end Sys2Proof.Machine
end

