-- ==== Sys2Proof/Machine/Encoder.lean ====
section
/-! DEFINITION. The unit `real48_encoder` (40_encoder.md): `ENC_F64` and `ENC_F32`. -/

namespace Sys2Proof.Machine

/-- R101: `ENC_F64`, encode a double. -/
def encodeF64 (d : Binary64) : Response 48 :=
  match F64.cls d with
  | .nonFinite       => .error .unrepresentable
  | .zeroOrSubnormal => .ok canonicalZero
  | .normal =>
    (narrow PEXP_MAX PMAN_W ROUND64 SHIFT64 ((F64.exp d).toNat - REBIAS64) (F64.man d).toNat).map
      fun (pe, m) => pack (F64.sign d) pe m

/-- R102: `ENC_F32`, encode a float. The mantissa widens exactly, so nothing rounds or carries. The
`Underflow` inside `checkRange` cannot fire (R102 corner case (c)); the spec keeps the test. -/
def encodeF32 (x : Binary32) : Response 48 :=
  match F32.cls x with
  | .nonFinite       => .error .unrepresentable
  | .zeroOrSubnormal => .ok canonicalZero
  | .normal =>
    (checkRange PEXP_MAX ((F32.exp x).toNat + REBIAS32)).map
      fun pe => pack (F32.sign x) pe ((F32.man x).toNat <<< SHIFT32)

/-- The meaning of `ENC_F64`: the encoder answers, nothing else changes (R20). -/
def execEncF64 (d : Binary64) (s : State) : StepOutcome := .next (s.answerEnc (encodeF64 d))

/-- The meaning of `ENC_F32`: the encoder answers, nothing else changes (R20). -/
def execEncF32 (x : Binary32) (s : State) : StepOutcome := .next (s.answerEnc (encodeF32 x))

end Sys2Proof.Machine
end

