-- ==== Sys2Proof/Machine/Dispatch.lean ====
section
/-! DEFINITION. One arm per operation of the table. -/

namespace Sys2Proof.Machine

def exec (i : Instr) (s : State) : Host.Outcome State Fault Refusal :=
  match i with
  | .encF64 d => Sys2Proof.Machine.execEncF64 d s
  | .encF32 x => Sys2Proof.Machine.execEncF32 x s
  | .decF64 p => Sys2Proof.Machine.execDecF64 p s
  | .decF32 p => Sys2Proof.Machine.execDecF32 p s

end Sys2Proof.Machine
end

