-- ==== Sys2Proof/Machine/Step.lean ====
section
/-! DEFINITION. One step: one operation, from its request to its response, at once
(70_reset_and_hazards.md R244). -/

namespace Sys2Proof.Machine

/-- One step performs the oldest request presented. Where the block takes no request (reset input
asserted, R240; nothing presented, log entry 3) the step changes nothing. -/
def step (s : State) : Host.Outcome State Fault Refusal :=
  match takeRequest s with
  | none         => .next s
  | some (r, s') => exec (decode r) s'

/-- `s` with the request `w` presented ahead of those waiting and the reset input released, so that the
very next step performs exactly it (log entry 4). A request has one length, so `nbits` says nothing
more. -/
def State.withFetchWord (s : State) (_nbits w : Nat) : State :=
  { s with requests := BitVec.ofNat 66 w :: s.requests, resetAsserted := false }

end Sys2Proof.Machine
end

