-- ==== Sys2Proof/Machine/Ieee.lean ====
section
/-! DEFINITION. Conversions between a float and a double that a REQUESTER does, never the block. The spec
needs them to say that the two encoders agree (40_encoder.md R107, 93_implementation_defined.md G4) and
how the two decoders are related (41_decoder.md R139). -/

namespace Sys2Proof.Machine

/-- R107, G4: the double of the same value as a normal float: the exponent field plus 896, the mantissa
shifted left by 29. -/
def widenNormal (x : Binary32) : Binary64 :=
  F64.assemble (F32.sign x) ((F32.exp x).toNat + 896) ((F32.man x).toNat <<< 29)

/-- R107: the double of the same value as a subnormal float with mantissa `f` not 0, a normal double with
exponent field in 874 to 896: `f × 2^-149` normalised at its leading one. -/
def widenSubnormal (x : Binary32) : Binary64 :=
  let f := (F32.man x).toNat
  F64.assemble (F32.sign x) (f.log2 + 874) ((f - 2 ^ f.log2) <<< (52 - f.log2))

/-- A float from a sign, an exponent field and a mantissa rounded to 23 bits, a carry going into the
exponent. -/
def floatOfRounded (s : BitVec 1) (e : Int) (m : Nat) : Binary32 :=
  if m = 2 ^ 23 then F32.assemble s (e + 1) 0 else F32.assemble s e m

/-- R139: "a round-half-up (on the magnitude) narrowing" of a normal double to a float of exponent field
`e - 896`, for doubles where that field is in range. -/
def narrowHalfUp (d : Binary64) : Binary32 :=
  floatOfRounded (F64.sign d) ((F64.exp d).toNat - 896) (roundHalfUp (2 ^ 28) 29 (F64.man d).toNat)

/-- The 29 discarded bits rounded to nearest, a tie to the even kept mantissa. -/
def roundNearestEven (f : Nat) : Nat :=
  let q := f / 2 ^ 29
  let r := f % 2 ^ 29
  if r > 2 ^ 28 then q + 1
  else if r = 2 ^ 28 then q + q % 2
  else q

/-- R139: "an IEEE round-to-nearest-even narrowing", on the same doubles. -/
def narrowNearestEven (d : Binary64) : Binary32 :=
  floatOfRounded (F64.sign d) ((F64.exp d).toNat - 896) (roundNearestEven (F64.man d).toNat)

end Sys2Proof.Machine
end

