-- ==== Sys2Proof/Machine/Constants.lean ====
section
/-! DEFINITION. The three named constant words (42_constants_and_laws.md R160 to R163): literals built by
field assembly, not operations of the block. -/

namespace Sys2Proof.Machine

/-- R160: "smallest positive normal (exponent 1, mantissa 0)". -/
def MIN : Packed := pack 0#1 1 0

/-- R161: "largest normal (exponent 255, mantissa all-ones)". -/
def MAX : Packed := pack 0#1 255 (2 ^ 39 - 1)

/-- R162: "exponent 90, mantissa 0". -/
def EPSILON : Packed := pack 0#1 90 0

end Sys2Proof.Machine
end

