-- ==== Sys2Proof/Machine/Ports.lean ====
section
/-! DEFINITION. The block seen from outside: the response as a function of the request (10_state.md R20,
30_encoding.md R70 to R73), the same on 66 wires, and the pins of the two units (92_eei_decisions.md
D3). Only the wire views read `Config.errResult`, and only on a failure. -/

namespace Sys2Proof.Machine

/-- What `real48_encoder` answers to an operation, where it is one of its own. -/
def encoderAnswer : Instr → Option (Response 48)
  | .encF64 d => some (encodeF64 d)
  | .encF32 x => some (encodeF32 x)
  | .decF64 _ => none
  | .decF32 _ => none

/-- What `real48_decoder` answers to an operation, where it is one of its own. -/
def decoderAnswer : Instr → Option DecResponse
  | .encF64 _ => none
  | .encF32 _ => none
  | .decF64 p => some (decResponse p (.f64 (decodeF64 p)))
  | .decF32 p => some (decResponse p (.f32 (decodeF32 p)))

/-- R72: the value of a response in the 64 lines of `result`, zeros above it. -/
def Result.toLines {w : Nat} (a : Response w) : Response 64 := a.map (BitVec.setWidth 64)

/-- R20, R70: `respond`, the abstract response to a request, its value placed as R72 says. -/
def respond (r : Request) : Response 64 :=
  match decode r with
  | .encF64 d => (encodeF64 d).toLines
  | .encF32 x => (encodeF32 x).toLines
  | .decF64 p => (decodeF64 p).toLines
  | .decF32 p => (decodeF32 p).toLines

/-- The value lines of a response; those of a failure carry whatever `lines` is (R73). -/
def Result.value {w : Nat} (a : Response w) (lines : BitVec w) : BitVec w :=
  match a with
  | .ok v    => v
  | .error _ => lines

/-- R70: `rsp[65:0]`, the status above the 64 result lines, which are `ERR_RESULT` of the request when the
operation failed (R73, D6). -/
def respondWires (r : Request) : BitVec 66 :=
  (respond r).status ++ (respond r).value (Config.errResult r)

/-- D3: the output pins of `real48_encoder`. -/
structure EncoderPins where
  status : BitVec 2
  out : BitVec 48
deriving DecidableEq, Repr

/-- D3: the output pins of `real48_decoder`. -/
structure DecoderPins where
  status : BitVec 2
  out : BitVec 64
  sign : BitVec 1
  exp : BitVec 8
  man : BitVec 39
  cls : BitVec 1
deriving DecidableEq, Repr

/-- R69, D3: the encoder from `enc_fmt` (0 double, 1 float) and `enc_in[63:0]`. On a failure `enc_out` is
the low 48 lines of `ERR_RESULT` for the same request. -/
def real48Encoder (fmt : BitVec 1) (inp : BitVec 64) : EncoderPins :=
  let a := if fmt = 0#1 then encodeF64 inp else encodeF32 (floatOperand inp)
  { status := a.status
    out := a.value ((Config.errResult (requestOf (0#1 ++ fmt) inp)).setWidth 48) }

/-- R69, R130, R133, D3: the decoder from `dec_fmt` (0 double, 1 float) and `dec_in[47:0]`. On a failure
`dec_out` is `ERR_RESULT` of the request with its ignored bits zero (log entry 2). -/
def real48Decoder (fmt : BitVec 1) (inp : BitVec 48) : DecoderPins :=
  let a := if fmt = 0#1 then (decodeF64 inp).toLines else (decodeF32 inp).toLines
  { status := a.status
    out := a.value (Config.errResult (requestOf (1#1 ++ fmt) (inp.setWidth 64)))
    sign := Packed.sign inp
    exp := Packed.exp inp
    man := Packed.man inp
    cls := (classify inp).bit }

end Sys2Proof.Machine
end

