-- ==== Sys2Proof/Machine/Requester.lean ====
section
/-! DEFINITION. The REQUESTER's side, as far as the spec writes it down: the notation for operations and
its pseudo-operations (30_encoding.md R77, R78). Nothing here is an operation or a state of the block. -/

namespace Sys2Proof.Machine

/-- R77: the four mnemonics. -/
inductive Mnemonic where
  | ENC_F64
  | ENC_F32
  | DEC_F64
  | DEC_F32
deriving DecidableEq, Repr

/-- R78, R170: `NEG x` is `x` with bit 47 inverted, done by the requester. -/
def neg (p : Packed) : Packed := p ^^^ 0x800000000000#48

/-- What a name of the notation is bound to: the value of a response or of a pseudo-operation, or a
failure. -/
inductive Binding where
  | double (d : Binary64)
  | float (x : Binary32)
  | packed (p : Packed)
  | bytes (b : PackedBytes)
  | cls (c : PackedClass)
  | failure (k : ErrorKind)
deriving DecidableEq, Repr

/-- R77: an operand is a literal of the operand's width or a name bound by an earlier line. -/
inductive Operand where
  | literal (v : Binding)
  | name (n : String)
deriving DecidableEq, Repr

/-- R77, R78: the right side of a line. -/
inductive Rhs where
  /-- `<MNEMONIC> <operand>`: an operation of the block. -/
  | op (m : Mnemonic) (x : Operand)
  /-- `CLASSIFY x`: the `class` output of the decoder. -/
  | CLASSIFY (x : Operand)
  /-- `MIN` -/
  | MIN
  /-- `MAX` -/
  | MAX
  /-- `EPSILON` -/
  | EPSILON
  /-- `BYTES x` -/
  | BYTES (x : Operand)
  /-- `WORD b0 b1 b2 b3 b4 b5`, the six bytes literal or under a name (95_test_vectors.md P1, P5). -/
  | WORD (x : Operand)
  /-- `NEG x` -/
  | NEG (x : Operand)
deriving DecidableEq, Repr

/-- R77: one line `<name> = ...`. -/
structure Line where
  name : String
  rhs : Rhs
deriving DecidableEq, Repr

/-- The bindings made so far, newest first. -/
abbrev Bindings := List (String × Binding)

/-- The binding an operand stands for; none for a name no earlier line has bound. -/
def Operand.eval (env : Bindings) : Operand → Option Binding
  | .literal v => some v
  | .name n    => env.lookup n

/-- R69, R77: the operation that a mnemonic and the value of its operand make; none where the operand has
not the width the operation takes. -/
def operation : Mnemonic → Binding → Option Instr
  | .ENC_F64, .double d => some (.encF64 d)
  | .ENC_F32, .float x  => some (.encF32 x)
  | .DEC_F64, .packed p => some (.decF64 p)
  | .DEC_F32, .packed p => some (.decF32 p)
  | _, _                => none

/-- R72: the value of an operation's result, taken from the lines it stands in. -/
def valueBinding : Mnemonic → BitVec 64 → Binding
  | .ENC_F64, v => .packed (packedOperand v)
  | .ENC_F32, v => .packed (packedOperand v)
  | .DEC_F64, v => .double v
  | .DEC_F32, v => .float (floatOperand v)

/-- R77: performing an operation presents its request and binds its response. -/
def perform (m : Mnemonic) (i : Instr) : Binding :=
  match respond (encode i) with
  | .ok v    => valueBinding m v
  | .error k => .failure k

/-- R77: a line whose operand is a failure is not performed and is bound to that same failure; otherwise
`g` says what it is bound to. -/
def propagate (x : Option Binding) (g : Binding → Option Binding) : Option Binding :=
  match x with
  | some (.failure k) => some (.failure k)
  | some v            => g v
  | none              => none

/-- R78: what `CLASSIFY`, `BYTES`, `WORD` and `NEG` give, where their operand is of the right kind. -/
def classifyBinding : Binding → Option Binding
  | .packed p => some (.cls (classify p))
  | _         => none

def bytesBinding : Binding → Option Binding
  | .packed p => some (.bytes (bytesOf p))
  | _         => none

def wordBinding : Binding → Option Binding
  | .bytes b => some (.packed (wordOf b))
  | _        => none

def negBinding : Binding → Option Binding
  | .packed p => some (.packed (neg p))
  | _         => none

/-- R77, R78: what a right side is bound to; none for a line that is not well formed (an unbound name, or
an operand of the wrong kind). -/
def Rhs.eval (env : Bindings) : Rhs → Option Binding
  | .op m x     => propagate (x.eval env) fun v => (operation m v).map (perform m)
  | .CLASSIFY x => propagate (x.eval env) classifyBinding
  | .MIN        => some (.packed Sys2Proof.Machine.MIN)
  | .MAX        => some (.packed Sys2Proof.Machine.MAX)
  | .EPSILON    => some (.packed Sys2Proof.Machine.EPSILON)
  | .BYTES x    => propagate (x.eval env) bytesBinding
  | .WORD x     => propagate (x.eval env) wordBinding
  | .NEG x      => propagate (x.eval env) negBinding

/-- R77: a sequence of lines, each binding its name; no branch, no loop and no storage but the names. -/
def runLines : List Line → Bindings → Option Bindings
  | [], env         => some env
  | l :: rest, env  =>
    match l.rhs.eval env with
    | some v => runLines rest ((l.name, v) :: env)
    | none   => none

end Sys2Proof.Machine
end

