-- ==== Sys2Proof/Machine/Value.lean ====
section
/-! DEFINITION. The numbers that words denote, as rationals (30_encoding.md R61, R62;
93_implementation_defined.md G3; 92_eei_decisions.md D24). No bit of any response depends on them. -/

namespace Sys2Proof.Machine

/-- The factor `(-1)^s` of a sign bit: 1 is negative (R60). -/
def signFactor (s : BitVec 1) : ℚ := if s = 1#1 then -1 else 1

/-- G3: a significand with an implicit leading one, `2^e × (1 + m / 2^w)`. -/
def magnitude (e : Int) (m w : Nat) : ℚ := (2 : ℚ) ^ e * (1 + (m : ℚ) / 2 ^ w)

/-- R61, R62: the value of a packed word. -/
def packedValue (p : Packed) : ℚ :=
  if Packed.exp p = 0#8 then 0
  else signFactor (Packed.sign p)
    * magnitude (((Packed.exp p).toNat : Int) - PBIAS) (Packed.man p).toNat PMAN_W

/-- G3: the value of a normal double (the formula is meant for exponent fields in 1 to 2046). -/
def normalValueF64 (d : Binary64) : ℚ :=
  signFactor (F64.sign d) * magnitude (((F64.exp d).toNat : Int) - F64_BIAS) (F64.man d).toNat F64_MAN_W

/-- G3: the value of a normal float (the formula is meant for exponent fields in 1 to 254). -/
def normalValueF32 (x : Binary32) : ℚ :=
  signFactor (F32.sign x) * magnitude (((F32.exp x).toNat : Int) - F32_BIAS) (F32.man x).toNat F32_MAN_W

/-- R103, R138: `r` is the multiple of `u` nearest to `a`, a tie going to the larger one. -/
def NearestTiesUp (u a r : ℚ) : Prop :=
  (∃ j : ℕ, r = j * u) ∧
  ∀ k : ℕ, (k : ℚ) * u ≠ r →
    |r - a| < |(k : ℚ) * u - a| ∨ (|r - a| = |(k : ℚ) * u - a| ∧ (k : ℚ) * u < r)

end Sys2Proof.Machine
end

