-- ==== Sys2Proof/Safety.lean ====
section
/-! DEFINITION. What counts as a safe machine: every response that stands in it is one the spec lets the
unit give. The bounds are those of 40_encoder.md R104, 41_decoder.md R133 to R137 and 60_exceptions.md
R202, stated of the answer alone. -/

namespace Sys2Proof.Machine

/-- R104: the canonical zero, or a word with a packed exponent in 1 to 255. -/
def canonical (p : Packed) : Prop := p = canonicalZero ∨ 1 ≤ (Packed.exp p).toNat

/-- R104: the encoder produces only canonical words. -/
def EncResponseSound : Response 48 → Prop
  | .ok p    => canonical p
  | .error _ => True

/-- R133, R135, R137, R202: a decoder's answer fits the fields and the class given beside it. A zero
pattern is answered +0; any other word is answered a double of exponent field 895 to 1149, the low 13
mantissa bits zero, or a float of exponent field 1 to 254, with the sign of the operand; the only failure
is `Underflow` of a float, for the packed exponents 1 and 2. -/
def DecResponseSound (a : DecResponse) : Prop :=
  (a.cls = .zero ↔ a.exp = 0#8) ∧
  match a.result with
  | .f64 (.ok d) =>
    if a.exp = 0#8 then d = 0#64
    else F64.sign d = a.sign ∧ 895 ≤ (F64.exp d).toNat ∧ (F64.exp d).toNat ≤ 1149
      ∧ (F64.man d).toNat % 2 ^ 13 = 0
  | .f64 (.error _) => False
  | .f32 (.ok x) =>
    if a.exp = 0#8 then x = 0#32
    else 3 ≤ a.exp.toNat ∧ F32.sign x = a.sign ∧ 1 ≤ (F32.exp x).toNat ∧ (F32.exp x).toNat ≤ 254
  | .f32 (.error k) => k = .underflow ∧ (a.exp = 1#8 ∨ a.exp = 2#8)

/-- Every response standing in the machine is sound. -/
def State.Sound (s : State) : Prop :=
  (∀ a ∈ s.encResponses, EncResponseSound a) ∧ (∀ a ∈ s.decResponses, DecResponseSound a)

end Sys2Proof.Machine
end

