-- ==== Sys2Proof/Certificates/Slice0/Obligations.lean ====
section
/-! DEFINITION. The statements for the provers, each naming the rule of the spec it formalises. -/

open Sys2Proof Sys2Proof.Machine

/-! ## The machine: reset, one step, runs -/

/-- R28, R241: after reset no state has a value. That the traffic is empty and the reset input released is
the model's choice (log entries 1, 3, 5). -/
def Obligations.ResetLeavesNoTraffic : Prop :=
  State.reset.requests = [] ∧ State.reset.encResponses = [] ∧ State.reset.decResponses = []
    ∧ State.reset.resetAsserted = false

/-- R22, R244: a step is the decoded operation of the oldest request, performed at once; the request is
taken from those waiting (the queue is the model's, log entry 1). -/
def Obligations.StepPerformsDecodedRequest : Prop :=
  ∀ (s : State) (r : Request) (rest : List Request), s.resetAsserted = false → s.requests = r :: rest →
    step s = exec (decode r) { s with requests := rest }

/-- Log entry 3 (the model's choice; U3 says the spec has no such moment): with no request presented a step
changes nothing. -/
def Obligations.StepWithoutRequestChangesNothing : Prop :=
  ∀ s : State, s.requests = [] → step s = .next s

/-- R240 (the reset input is optional: D13): while it is asserted nothing is accepted and nothing answered, and
once released the first request gets its ordinary response. That the requests waiting and the responses given
survive an asserted reset, as the first clause also says, is the model's choice (log entry 5, DESIGN CHOICE):
neither R240 nor D13 says who keeps them. -/
def Obligations.ResetInputHoldsRequestsOff : Prop :=
  (∀ s : State, s.resetAsserted = true → step s = .next s) ∧
  ∀ (s : State) (r : Request) (rest : List Request), s.requests = r :: rest →
    step { s with resetAsserted := false }
      = exec (decode r) { s with requests := rest, resetAsserted := false }

/-- R75, R106, R136, R207: no step of any state stops; every failure kind is an ordinary response. -/
def Obligations.EveryStepAnswersNext : Prop :=
  ∀ s : State, ∃ t : State, step s = .next t

/-- R70, R244: a request that is taken gets exactly one response, from one unit, in that same step, and the
earlier responses stand. -/
def Obligations.EveryRequestGetsOneResponse : Prop :=
  ∀ (s : State) (r : Request) (rest : List Request), s.resetAsserted = false → s.requests = r :: rest →
    ∃ t : State, step s = .next t ∧ t.requests = rest ∧ t.resetAsserted = false ∧
      ((∃ a, t.encResponses = s.encResponses ++ [a] ∧ t.decResponses = s.decResponses) ∨
       (∃ a, t.encResponses = s.encResponses ∧ t.decResponses = s.decResponses ++ [a]))

/-- R20 and its frame: an operation changes nothing but its own unit's responses, to which it adds one; the
requests waiting, the other unit's responses and the reset input stay. -/
def Obligations.OperationsChangeOnlyTheirUnitsResponses : Prop :=
  ∀ (i : Instr) (s t : State), exec i s = .next t →
    t.requests = s.requests ∧ t.resetAsserted = s.resetAsserted ∧
    match i with
    | .encF64 _ => t.decResponses = s.decResponses ∧ ∃ a, t.encResponses = s.encResponses ++ [a]
    | .encF32 _ => t.decResponses = s.decResponses ∧ ∃ a, t.encResponses = s.encResponses ++ [a]
    | .decF64 _ => t.encResponses = s.encResponses ∧ ∃ a, t.decResponses = s.decResponses ++ [a]
    | .decF32 _ => t.encResponses = s.encResponses ∧ ∃ a, t.decResponses = s.decResponses ++ [a]

/-- R20: the response of an operation depends on its code and operand and on nothing else: two machines that
take the same request, whatever came before and whatever waits, give the same response. -/
def Obligations.ResponseDependsOnRequestAlone : Prop :=
  ∀ (s₁ s₂ t₁ t₂ : State) (r : Request) (rest₁ rest₂ : List Request),
    s₁.resetAsserted = false → s₂.resetAsserted = false →
    s₁.requests = r :: rest₁ → s₂.requests = r :: rest₂ →
    step s₁ = .next t₁ → step s₂ = .next t₂ →
    ∃ (a : List (Response 48)) (b : List DecResponse),
      t₁.encResponses = s₁.encResponses ++ a ∧ t₂.encResponses = s₂.encResponses ++ a ∧
      t₁.decResponses = s₁.decResponses ++ b ∧ t₂.decResponses = s₂.decResponses ++ b ∧
      a.length + b.length = 1

/-- R244, R245: from every state with the reset input released, `n` steps answer the first `n` requests, each
unit's responses in the order its requests entered, each the unit's answer to its own request. -/
def Obligations.RunAnswersRequestsInOrder : Prop :=
  ∀ (s : State) (n : Nat), s.resetAsserted = false → n ≤ s.requests.length →
    Host.Core.run Sys2Proof.core n s = .next
      { requests := s.requests.drop n
        encResponses := s.encResponses
          ++ (s.requests.take n).filterMap fun r => encoderAnswer (decode r)
        decResponses := s.decResponses
          ++ (s.requests.take n).filterMap fun r => decoderAnswer (decode r)
        resetAsserted := false }

/-- R22, R51: the order in which requests are performed does not matter to any response: the same requests in
another order are all performed and leave the same responses, rearranged. -/
def Obligations.OrderOfRequestsDoesNotMatter : Prop :=
  ∀ (s t t' : State) (rs rs' : List Request), s.resetAsserted = false → rs.Perm rs' →
    Host.Core.run Sys2Proof.core rs.length { s with requests := rs } = .next t →
    Host.Core.run Sys2Proof.core rs'.length { s with requests := rs' } = .next t' →
    t.requests = [] ∧ t'.requests = []
      ∧ t.encResponses.Perm t'.encResponses ∧ t.decResponses.Perm t'.decResponses

/-- R245: the units are independent: a request of one and a request of the other may be performed in either
order with the same outcome. -/
def Obligations.UnitsAreIndependent : Prop :=
  ∀ (s : State) (r q : Request) (rest : List Request), s.resetAsserted = false →
    (opOf r).getLsbD 1 ≠ (opOf q).getLsbD 1 →
    Host.Core.run Sys2Proof.core 2 { s with requests := r :: q :: rest }
      = Host.Core.run Sys2Proof.core 2 { s with requests := q :: r :: rest }

/-- R47, R208: presenting the same request again gives the same response, also after a failure. -/
def Obligations.RepeatedRequestRepeatsResponse : Prop :=
  ∀ (s : State) (r : Request), s.resetAsserted = false →
    ∃ (a : List (Response 48)) (b : List DecResponse), a.length + b.length = 1 ∧
      Host.Core.run Sys2Proof.core 2 { s with requests := [r, r] } = .next
        { s with
          requests := []
          encResponses := s.encResponses ++ a ++ a
          decResponses := s.decResponses ++ b ++ b }

/-- The invariant: every response standing in the machine is one the spec lets its unit give (R104, R133,
R135, R137, R202), in every state that meets it, whatever is presented. -/
def Obligations.StepKeepsResponsesSound : Prop :=
  ∀ s t : State, s.Sound → step s = .next t → t.Sound

/-- The invariant of sound responses holds in the model's reset state. It does because no response stands there,
which is the model's choice (log entry 1, DESIGN CHOICE): R28 gives no reset value. -/
def Obligations.ResetResponsesSound : Prop := State.reset.Sound

/-! ## Requests -/

/-- R68, R69: request words of 95_test_vectors.md (P1 to P3, F20, X30) written out from the table. -/
def Obligations.RequestWordsDecode : Prop :=
  decode 0x0400921FB54442D18#66 = .encF64 0x400921FB54442D18#64 ∧
  decode 0x1000000003DCCCCCD#66 = .encF32 0x3DCCCCCD#32 ∧
  decode 0x20000490FDAA22182#66 = .decF64 0x490FDAA22182#48 ∧
  decode 0x300007FFFFFFFFF81#66 = .decF32 0x7FFFFFFFFF81#48 ∧
  decode 0x1DEADBEEF3F800000#66 = .encF32 0x3F800000#32 ∧
  decode 0x2ABCD000000000081#66 = .decF64 0x000000000081#48

/-- R68, R69, R75: `req[65:0]` is `op[1:0]` above `operand[63:0]`; each of the four codes stands for its
operation on its slice of the operand, and every request is one of these. -/
def Obligations.RequestFormatCoversEveryRequest : Prop :=
  (∀ operand : BitVec 64,
    decode (requestOf 0b00#2 operand) = .encF64 operand ∧
    decode (requestOf 0b01#2 operand) = .encF32 (operand.extractLsb' 0 32) ∧
    decode (requestOf 0b10#2 operand) = .decF64 (operand.extractLsb' 0 48) ∧
    decode (requestOf 0b11#2 operand) = .decF32 (operand.extractLsb' 0 48)) ∧
  ∀ r : Request, ∃ (op : BitVec 2) (operand : BitVec 64),
    r = requestOf op operand ∧ r.toNat = op.toNat * 2 ^ 64 + operand.toNat ∧
    (op = 0b00#2 ∨ op = 0b01#2 ∨ op = 0b10#2 ∨ op = 0b11#2)

/-- R68, R69: decoding an encoded operation gives it back, with every operand at every value, as a word and as
a number offered as a request. -/
def Obligations.DecodeInvertsEncode : Prop :=
  ∀ i : Instr, i.wellFormed = true →
    decode (encode i) = i ∧ decodeBits (encode i).toNat = .ok i
      ∧ decodeTableWord 66 (encode i).toNat = some i

/-- Encoding a decoded request gives the request with its ignored operand bits zero, and nothing else changed.
Which bits are ignored is R69; that `encode` sends them as zero is the model's choice (log entry 7, DEDUCED), after
95_test_vectors.md section 6. R69 itself lets them hold anything. -/
def Obligations.EncodeOfDecodeClearsIgnoredBits : Prop :=
  ∀ r : Request,
    opOf (encode (decode r)) = opOf r ∧
    (operandOf (encode (decode r))).toNat =
      if opOf r = 0b00#2 then (operandOf r).toNat
      else if opOf r = 0b01#2 then (operandOf r).toNat % 2 ^ 32
      else (operandOf r).toNat % 2 ^ 48

/-- R69, U5: "Ignored bits may hold anything and never change the response". -/
def Obligations.IgnoredBitsNeverChangeTheResponse : Prop :=
  (∀ (v v' : BitVec 64), v.extractLsb' 0 32 = v'.extractLsb' 0 32 →
    respond (requestOf 0b01#2 v) = respond (requestOf 0b01#2 v')
    ∧ ∀ (s : State) (rest : List Request),
      step { s with requests := requestOf 0b01#2 v :: rest, resetAsserted := false }
        = step { s with requests := requestOf 0b01#2 v' :: rest, resetAsserted := false }) ∧
  (∀ (op : BitVec 2) (v v' : BitVec 64), op = 0b10#2 ∨ op = 0b11#2 →
    v.extractLsb' 0 48 = v'.extractLsb' 0 48 →
    respond (requestOf op v) = respond (requestOf op v')
    ∧ ∀ (s : State) (rest : List Request),
      step { s with requests := requestOf op v :: rest, resetAsserted := false }
        = step { s with requests := requestOf op v' :: rest, resetAsserted := false })

/-- A number is turned away as a request exactly when it has a bit above bit 65. That such a number is rejected, by
the name `notARequestWord`, is the model's choice (log entry 6, DEDUCED): R76 gives the one request length and says
nothing of longer numbers. That no other number is rejected is R75. -/
def Obligations.OnlyOverlongNumbersAreRejected : Prop :=
  ∀ w : Nat, decodeBits w = .error .notARequestWord ↔ 2 ^ 66 ≤ w

/-! ## The encoder -/

/-- R101 (and R105, which the spec derives from it): the request of `ENC_F64`, and what it answers, for every double and every state, with its whole frame. -/
def Obligations.EncF64AnswersByExponent : Prop :=
  (∀ operand : BitVec 64, decode (requestOf 0b00#2 operand) = .encF64 operand) ∧
  ∀ (d : Binary64) (s : State),
    ((F64.exp d).toNat = 0 →
      exec (.encF64 d) s
        = .next { s with encResponses := s.encResponses ++ [.ok 0x000000000000#48] }) ∧
    (1 ≤ (F64.exp d).toNat → (F64.exp d).toNat ≤ 894 →
      exec (.encF64 d) s = .next { s with encResponses := s.encResponses ++ [.error .underflow] }) ∧
    (895 ≤ (F64.exp d).toNat → (F64.exp d).toNat ≤ 1149 →
      ((F64.man d).toNat + 2 ^ 12) / 2 ^ 13 < 2 ^ 39 →
      ∃ p : Packed,
        exec (.encF64 d) s = .next { s with encResponses := s.encResponses ++ [.ok p] }
        ∧ Packed.sign p = F64.sign d
        ∧ (Packed.exp p).toNat = (F64.exp d).toNat - 894
        ∧ (Packed.man p).toNat = ((F64.man d).toNat + 2 ^ 12) / 2 ^ 13) ∧
    (895 ≤ (F64.exp d).toNat → (F64.exp d).toNat ≤ 1148 →
      ((F64.man d).toNat + 2 ^ 12) / 2 ^ 13 = 2 ^ 39 →
      ∃ p : Packed,
        exec (.encF64 d) s = .next { s with encResponses := s.encResponses ++ [.ok p] }
        ∧ Packed.sign p = F64.sign d
        ∧ (Packed.exp p).toNat = (F64.exp d).toNat - 893
        ∧ (Packed.man p).toNat = 0) ∧
    ((F64.exp d).toNat = 1149 → 2 ^ 52 - 2 ^ 12 ≤ (F64.man d).toNat →
      exec (.encF64 d) s = .next { s with encResponses := s.encResponses ++ [.error .overflow] }) ∧
    (1150 ≤ (F64.exp d).toNat → (F64.exp d).toNat ≤ 2046 →
      exec (.encF64 d) s = .next { s with encResponses := s.encResponses ++ [.error .overflow] }) ∧
    ((F64.exp d).toNat = 2047 →
      exec (.encF64 d) s
        = .next { s with encResponses := s.encResponses ++ [.error .unrepresentable] })

/-- R102: the request of `ENC_F32`, and what it answers, for every float and every state, with its whole frame. -/
def Obligations.EncF32AnswersByExponent : Prop :=
  (∀ operand : BitVec 64, decode (requestOf 0b01#2 operand) = .encF32 (operand.extractLsb' 0 32)) ∧
  ∀ (x : Binary32) (s : State),
    ((F32.exp x).toNat = 0 →
      exec (.encF32 x) s
        = .next { s with encResponses := s.encResponses ++ [.ok 0x000000000000#48] }) ∧
    (1 ≤ (F32.exp x).toNat → (F32.exp x).toNat ≤ 253 →
      ∃ p : Packed,
        exec (.encF32 x) s = .next { s with encResponses := s.encResponses ++ [.ok p] }
        ∧ Packed.sign p = F32.sign x
        ∧ (Packed.exp p).toNat = (F32.exp x).toNat + 2
        ∧ (Packed.man p).toNat = (F32.man x).toNat * 2 ^ 16) ∧
    ((F32.exp x).toNat = 254 →
      exec (.encF32 x) s = .next { s with encResponses := s.encResponses ++ [.error .overflow] }) ∧
    ((F32.exp x).toNat = 255 →
      exec (.encF32 x) s
        = .next { s with encResponses := s.encResponses ++ [.error .unrepresentable] })

/-- R104: the encoder produces only canonical words. -/
def Obligations.EncoderProducesOnlyCanonicalWords : Prop :=
  ∀ p : Packed, ((∃ d, encodeF64 d = .ok p) ∨ (∃ x, encodeF32 x = .ok p)) →
    (p = 0x000000000000#48 ∨ (1 ≤ (Packed.exp p).toNat ∧ (Packed.exp p).toNat ≤ 255)) ∧
    ¬ (Packed.exp p = 0#8 ∧ p ≠ 0x000000000000#48)

/-- R108: the sign bit is copied, never computed, and encoding commutes with negation. -/
def Obligations.EncoderCopiesTheSign : Prop :=
  (∀ (d : Binary64) (p : Packed), encodeF64 d = .ok p →
    (p = 0#48 → Packed.sign p = 0#1) ∧
    (p ≠ 0#48 → Packed.sign p = F64.sign d ∧
      encodeF64 (d ^^^ 0x8000000000000000#64) = .ok (p ^^^ 0x800000000000#48))) ∧
  (∀ (x : Binary32) (p : Packed), encodeF32 x = .ok p →
    (p = 0#48 → Packed.sign p = 0#1) ∧
    (p ≠ 0#48 → Packed.sign p = F32.sign x ∧
      encodeF32 (x ^^^ 0x80000000#32) = .ok (p ^^^ 0x800000000000#48)))

/-- R107: the two encoders agree on normal floats, infinities, NaNs and zeros, and differ on subnormal floats.
The double of the same value as a normal float is G4's. That of a subnormal float is `widenSubnormal`, whose formula
the rule does not give: it is the model's (log entry 9, DEDUCED). -/
def Obligations.EncodersAgreeExceptOnSubnormals : Prop :=
  (∀ x : Binary32, 1 ≤ (F32.exp x).toNat → (F32.exp x).toNat ≤ 254 →
    encodeF32 x = encodeF64 (widenNormal x)) ∧
  (∀ (x : Binary32) (d : Binary64), (F32.exp x).toNat = 255 → (F64.exp d).toNat = 2047 →
    encodeF32 x = .error .unrepresentable ∧ encodeF64 d = .error .unrepresentable) ∧
  (∀ (x : Binary32) (d : Binary64), (F32.exp x).toNat = 0 → (F32.man x).toNat = 0 →
    (F64.exp d).toNat = 0 → (F64.man d).toNat = 0 →
    encodeF32 x = .ok 0#48 ∧ encodeF64 d = .ok 0#48) ∧
  (∀ x : Binary32, (F32.exp x).toNat = 0 → (F32.man x).toNat ≠ 0 →
    encodeF32 x = .ok 0#48 ∧
    874 ≤ (F64.exp (widenSubnormal x)).toNat ∧ (F64.exp (widenSubnormal x)).toNat ≤ 896 ∧
    ((F64.exp (widenSubnormal x)).toNat ≤ 894 →
      encodeF64 (widenSubnormal x) = .error .underflow) ∧
    (895 ≤ (F64.exp (widenSubnormal x)).toNat →
      ∃ p : Packed, encodeF64 (widenSubnormal x) = .ok p ∧ p ≠ 0#48
        ∧ ((Packed.exp p).toNat = 1 ∨ (Packed.exp p).toNat = 2)))

/-- R169: the boundary rounding carry, at the exact half and at every discarded part above it, and its
`Overflow` at the top exponent. -/
def Obligations.BoundaryRoundingCarries : Prop :=
  ∀ d : Binary64, (F64.man d).toNat / 2 ^ 13 = 2 ^ 39 - 1 → 2 ^ 12 ≤ (F64.man d).toNat % 2 ^ 13 →
    (895 ≤ (F64.exp d).toNat → (F64.exp d).toNat ≤ 1148 →
      encodeF64 d = .ok (pack (F64.sign d) ((F64.exp d).toNat - 894 + 1) 0)) ∧
    ((F64.exp d).toNat = 1149 → encodeF64 d = .error .overflow)

/-- R168: no NaN and no infinity can be packed, of either sign and any payload. -/
def Obligations.NonFiniteInputIsUnrepresentable : Prop :=
  (∀ d : Binary64, (F64.exp d).toNat = 2047 → encodeF64 d = .error .unrepresentable) ∧
  (∀ x : Binary32, (F32.exp x).toNat = 255 → encodeF32 x = .error .unrepresentable) ∧
  encodeF64 0x7FF8000000000000#64 = .error .unrepresentable ∧
  encodeF64 0x7FF0000000000000#64 = .error .unrepresentable ∧
  encodeF64 0xFFF0000000000000#64 = .error .unrepresentable

/-- R167: both zeros of both formats encode to the all-zero word, which decodes to +0. -/
def Obligations.ZerosAreCanonicalised : Prop :=
  encodeF64 0x0000000000000000#64 = .ok 0x000000000000#48 ∧
  encodeF64 0x8000000000000000#64 = .ok 0x000000000000#48 ∧
  bytesOf 0x000000000000#48 = ⟨0x00#8, 0x00#8, 0x00#8, 0x00#8, 0x00#8, 0x00#8⟩ ∧
  encodeF32 0x00000000#32 = .ok 0x000000000000#48 ∧
  encodeF32 0x80000000#32 = .ok 0x000000000000#48 ∧
  decodeF64 0x000000000000#48 = .ok 0x0000000000000000#64 ∧
  decodeF32 0x000000000000#48 = .ok 0x00000000#32

/-! ## The decoder -/

/-- R131: the request of `DEC_F64`, and what it answers, for every packed word and every state, with its whole frame. -/
def Obligations.DecF64AnswersEveryWord : Prop :=
  (∀ operand : BitVec 64, decode (requestOf 0b10#2 operand) = .decF64 (operand.extractLsb' 0 48)) ∧
  ∀ (p : Packed) (s : State),
    (Packed.exp p = 0#8 →
      exec (.decF64 p) s = .next { s with
        decResponses := s.decResponses ++ [decResponse p (.f64 (.ok 0x0000000000000000#64))] }) ∧
    (Packed.exp p ≠ 0#8 →
      ∃ d : Binary64,
        exec (.decF64 p) s = .next { s with
          decResponses := s.decResponses ++ [decResponse p (.f64 (.ok d))] }
        ∧ F64.sign d = Packed.sign p
        ∧ (F64.exp d).toNat = (Packed.exp p).toNat + 894
        ∧ (F64.man d).toNat = (Packed.man p).toNat * 2 ^ 13)

/-- R132 (and R137, which the spec derives from it): the request of `DEC_F32`, and what it answers, for every packed word and every state, with its whole frame. -/
def Obligations.DecF32AnswersByExponent : Prop :=
  (∀ operand : BitVec 64, decode (requestOf 0b11#2 operand) = .decF32 (operand.extractLsb' 0 48)) ∧
  ∀ (p : Packed) (s : State),
    (Packed.exp p = 0#8 →
      exec (.decF32 p) s = .next { s with
        decResponses := s.decResponses ++ [decResponse p (.f32 (.ok 0x00000000#32))] }) ∧
    (Packed.exp p = 1#8 ∨ Packed.exp p = 2#8 →
      exec (.decF32 p) s = .next { s with
        decResponses := s.decResponses ++ [decResponse p (.f32 (.error .underflow))] }) ∧
    (3 ≤ (Packed.exp p).toNat → ((Packed.man p).toNat + 2 ^ 15) / 2 ^ 16 < 2 ^ 23 →
      ∃ x : Binary32,
        exec (.decF32 p) s = .next { s with
          decResponses := s.decResponses ++ [decResponse p (.f32 (.ok x))] }
        ∧ F32.sign x = Packed.sign p
        ∧ (F32.exp x).toNat = (Packed.exp p).toNat - 2
        ∧ (F32.man x).toNat = ((Packed.man p).toNat + 2 ^ 15) / 2 ^ 16) ∧
    (3 ≤ (Packed.exp p).toNat → ((Packed.man p).toNat + 2 ^ 15) / 2 ^ 16 = 2 ^ 23 →
      ∃ x : Binary32,
        exec (.decF32 p) s = .next { s with
          decResponses := s.decResponses ++ [decResponse p (.f32 (.ok x))] }
        ∧ F32.sign x = Packed.sign p
        ∧ (F32.exp x).toNat = (Packed.exp p).toNat - 1
        ∧ (F32.man x).toNat = 0)

/-- R130, R133, D16: either decoder operation gives, beside its result and whatever its status, the raw fields
of its operand and the class, which reads the exponent alone. -/
def Obligations.DecoderGivesFieldsAndClass : Prop :=
  ∀ (i : Instr) (p : Packed) (s : State), i = .decF64 p ∨ i = .decF32 p →
    ∃ a : DecResponse,
      exec i s = .next { s with decResponses := s.decResponses ++ [a] }
      ∧ a.sign = p.extractLsb' 47 1 ∧ a.exp = p.extractLsb' 0 8 ∧ a.man = p.extractLsb' 8 39
      ∧ (a.cls = .zero ↔ p.toNat % 256 = 0) ∧ (a.cls = .normal ↔ p.toNat % 256 ≠ 0)
      ∧ a.cls.bit = if p.toNat % 256 = 0 then 0#1 else 1#1

/-- R135: the range of the decoder's results. -/
def Obligations.DecoderResultsAreZeroOrNormal : Prop :=
  ∀ p : Packed,
    (∃ d : Binary64, decodeF64 p = .ok d ∧
      (d = 0x0000000000000000#64 ∨
        (F64.sign d = Packed.sign p ∧ 895 ≤ (F64.exp d).toNat ∧ (F64.exp d).toNat ≤ 1149
          ∧ (F64.man d).toNat % 2 ^ 13 = 0))) ∧
    (∀ x : Binary32, decodeF32 p = .ok x →
      x = 0x00000000#32 ∨ (1 ≤ (F32.exp x).toNat ∧ (F32.exp x).toNat ≤ 254))

/-- R139: `DEC_F32` is the round-half-up narrowing of `DEC_F64`, and differs from a round-to-nearest-even
narrowing exactly on ties whose kept mantissa is even. R139 names the round-to-nearest-even narrowing and does not
define it: `roundNearestEven` and `narrowNearestEven` are the model's (log entry 9, PRESUMED from IEEE-754). -/
def Obligations.DecodersAgreeUpToHalfUpNarrowing : Prop :=
  ∀ p : Packed, 3 ≤ (Packed.exp p).toNat →
    ∃ d : Binary64, decodeF64 p = .ok d ∧ decodeF32 p = .ok (narrowHalfUp d) ∧
      (decodeF32 p ≠ .ok (narrowNearestEven d) ↔
        (Packed.man p).toNat % 2 ^ 16 = 0x8000 ∧ (Packed.man p).toNat / 2 ^ 16 % 2 = 0)

/-- R63, R170, U2: negating a zero pattern leaves a zero pattern, which decodes to +0 and classifies as
`Zero`; negating any other word negates what it decodes to. -/
def Obligations.NegationIsSeenAsNegation : Prop :=
  ∀ p : Packed,
    (Packed.exp p = 0#8 →
      decodeF64 (neg p) = .ok 0#64 ∧ decodeF32 (neg p) = .ok 0#32 ∧ classify (neg p) = .zero) ∧
    (Packed.exp p ≠ 0#8 →
      classify (neg p) = .normal ∧
      ∃ d : Binary64, decodeF64 p = .ok d ∧ decodeF64 (neg p) = .ok (d ^^^ 0x8000000000000000#64))

/-! ## Failures and the response -/

/-- R202: which operation raises which kind, and exactly when. -/
def Obligations.FailuresHappenExactlyWhenTabled : Prop :=
  (∀ d : Binary64,
    (encodeF64 d = .error .unrepresentable ↔ (F64.exp d).toNat = 2047) ∧
    (encodeF64 d = .error .underflow ↔ 1 ≤ (F64.exp d).toNat ∧ (F64.exp d).toNat ≤ 894) ∧
    (encodeF64 d = .error .overflow ↔
      (1150 ≤ (F64.exp d).toNat ∧ (F64.exp d).toNat ≤ 2046) ∨
      ((F64.exp d).toNat = 1149 ∧ 2 ^ 52 - 2 ^ 12 ≤ (F64.man d).toNat))) ∧
  (∀ x : Binary32,
    (encodeF32 x = .error .unrepresentable ↔ (F32.exp x).toNat = 255) ∧
    encodeF32 x ≠ .error .underflow ∧
    (encodeF32 x = .error .overflow ↔ (F32.exp x).toNat = 254)) ∧
  (∀ (p : Packed) (k : ErrorKind), decodeF64 p ≠ .error k) ∧
  (∀ p : Packed,
    decodeF32 p ≠ .error .unrepresentable ∧ decodeF32 p ≠ .error .overflow ∧
    (decodeF32 p = .error .underflow ↔ Packed.exp p = 1#8 ∨ Packed.exp p = 2#8))

/-- R70, R71, R73: on the wires, status `00` is success with the value below it, and each failure kind has its
code; nothing is said of the result lines of a failure. -/
def Obligations.WiresCarryStatusAndValue : Prop :=
  ∀ r : Request,
    (∀ v : BitVec 64, respond r = .ok v →
      (respondWires r).extractLsb' 64 2 = 0b00#2 ∧ (respondWires r).extractLsb' 0 64 = v) ∧
    (respond r = .error .unrepresentable → (respondWires r).extractLsb' 64 2 = 0b01#2) ∧
    (respond r = .error .underflow → (respondWires r).extractLsb' 64 2 = 0b10#2) ∧
    (respond r = .error .overflow → (respondWires r).extractLsb' 64 2 = 0b11#2)

/-- R72: the value of a successful operation stands in the low bits of `result`, zeros above it. -/
def Obligations.ResultIsPlacedWithZeroFill : Prop :=
  ∀ v : BitVec 64,
    (∀ d, respond (encode (.encF64 d)) = .ok v →
      encodeF64 d = .ok (v.extractLsb' 0 48) ∧ v.extractLsb' 48 16 = 0#16) ∧
    (∀ x, respond (encode (.encF32 x)) = .ok v →
      encodeF32 x = .ok (v.extractLsb' 0 48) ∧ v.extractLsb' 48 16 = 0#16) ∧
    (∀ p, respond (encode (.decF64 p)) = .ok v → decodeF64 p = .ok v) ∧
    (∀ p, respond (encode (.decF32 p)) = .ok v →
      decodeF32 p = .ok (v.extractLsb' 0 32) ∧ v.extractLsb' 32 32 = 0#32)

/-- R69, R71, D3: the pins of the two units carry what the 66-bit request and response carry, `op` being the
unit above the format. -/
def Obligations.PinsCarryTheResponse : Prop :=
  ∀ (fmt : BitVec 1) (operand : BitVec 64),
    ((real48Encoder fmt operand).status = (respond (requestOf (0#1 ++ fmt) operand)).status ∧
      ∀ v, respond (requestOf (0#1 ++ fmt) operand) = .ok v →
        (real48Encoder fmt operand).out = v.extractLsb' 0 48) ∧
    ((real48Decoder fmt (operand.extractLsb' 0 48)).status
        = (respond (requestOf (1#1 ++ fmt) operand)).status ∧
      ∀ v, respond (requestOf (1#1 ++ fmt) operand) = .ok v →
        (real48Decoder fmt (operand.extractLsb' 0 48)).out = v)

/-- R77: a line whose operand is a failure is not performed and binds that same failure. -/
def Obligations.NotationPropagatesFailures : Prop :=
  ∀ (env : Bindings) (x : Operand) (k : ErrorKind), x.eval env = some (.failure k) →
    (∀ m : Mnemonic, (Rhs.op m x).eval env = some (.failure k)) ∧
    (Rhs.CLASSIFY x).eval env = some (.failure k) ∧ (Rhs.BYTES x).eval env = some (.failure k) ∧
    (Rhs.WORD x).eval env = some (.failure k) ∧ (Rhs.NEG x).eval env = some (.failure k)

/-- R68, R72, R77: performing an operation in the notation binds the answer its unit gives: the value at the
operation's own width, or the failure. -/
def Obligations.PerformBindsTheUnitsAnswer : Prop :=
  (∀ (d : Binary64) (s : State), ∃ a : Response 48,
    exec (.encF64 d) s = .next { s with encResponses := s.encResponses ++ [a] } ∧
    perform .ENC_F64 (.encF64 d) = match a with | .ok p => .packed p | .error k => .failure k) ∧
  (∀ (x : Binary32) (s : State), ∃ a : Response 48,
    exec (.encF32 x) s = .next { s with encResponses := s.encResponses ++ [a] } ∧
    perform .ENC_F32 (.encF32 x) = match a with | .ok p => .packed p | .error k => .failure k) ∧
  (∀ (p : Packed) (s : State), ∃ a : Response 64,
    exec (.decF64 p) s
      = .next { s with decResponses := s.decResponses ++ [decResponse p (.f64 a)] } ∧
    perform .DEC_F64 (.decF64 p) = match a with | .ok d => .double d | .error k => .failure k) ∧
  (∀ (p : Packed) (s : State), ∃ a : Response 32,
    exec (.decF32 p) s
      = .next { s with decResponses := s.decResponses ++ [decResponse p (.f32 a)] } ∧
    perform .DEC_F32 (.decF32 p) = match a with | .ok x => .float x | .error k => .failure k)

/-! ## Formats -/

/-- R100, R130: packing and unpacking are inverse to each other. -/
def Obligations.PackAndUnpackAreInverse : Prop :=
  (∀ (s : BitVec 1) (e : BitVec 8) (m : BitVec 39), unpack (pack s e.toNat m.toNat) = (s, e, m)) ∧
  (∀ p : Packed, pack (unpack p).1 (unpack p).2.1.toNat (unpack p).2.2.toNat = p)

/-- R42: the two byte functions are inverse to each other. -/
def Obligations.BytesAndWordAreInverse : Prop :=
  (∀ p : Packed, wordOf (bytesOf p) = p) ∧ (∀ b : PackedBytes, bytesOf (wordOf b) = b)

/-- R41: where the fields of the packed word fall on its bytes. -/
def Obligations.FieldsFallOnBytes : Prop :=
  (∀ p : Packed,
    (bytesOf p).b0 = Packed.exp p ∧
    (bytesOf p).b1 = (Packed.man p).extractLsb' 0 8 ∧
    (bytesOf p).b2 = (Packed.man p).extractLsb' 8 8 ∧
    (bytesOf p).b3 = (Packed.man p).extractLsb' 16 8 ∧
    (bytesOf p).b4 = (Packed.man p).extractLsb' 24 8 ∧
    (bytesOf p).b5.extractLsb' 0 7 = (Packed.man p).extractLsb' 32 7 ∧
    (bytesOf p).b5.extractLsb' 7 1 = Packed.sign p) ∧
  bytesOf 0x000000000081#48 = ⟨0x81#8, 0x00#8, 0x00#8, 0x00#8, 0x00#8, 0x00#8⟩ ∧
  bytesOf 0xA00000000082#48 = ⟨0x82#8, 0x00#8, 0x00#8, 0x00#8, 0x00#8, 0xA0#8⟩

/-- R46, D15: an array of packed values has a stride of six bytes. -/
def Obligations.PackedArraysHaveStrideSix : Prop :=
  ∀ ps : List Packed, (packedArray ps).length = 6 * ps.length ∧
    ∀ (k i : Nat) (p : Packed), ps[k]? = some p → i < 6 →
      (packedArray ps)[6 * k + i]? = some (packedByte p i)

/-- R160, R161, R162, R163: the three constants, their values and bytes, what they decode to, and the doubles
that encode to them. -/
def Obligations.NamedConstantsAreAsGiven : Prop :=
  (MIN = 0x000000000001#48 ∧ bytesOf MIN = ⟨0x01#8, 0#8, 0#8, 0#8, 0#8, 0#8⟩ ∧
    packedValue MIN = (2 : ℚ) ^ (-128 : ℤ) ∧ decodeF64 MIN = .ok 0x37F0000000000000#64 ∧
    decodeF32 MIN = .error .underflow ∧ classify MIN = .normal ∧
    encodeF64 0x37F0000000000000#64 = .ok MIN) ∧
  (MAX = 0x7FFFFFFFFFFF#48 ∧ bytesOf MAX = ⟨0xFF#8, 0xFF#8, 0xFF#8, 0xFF#8, 0xFF#8, 0x7F#8⟩ ∧
    packedValue MAX = (2 : ℚ) ^ (126 : ℤ) * (2 - (2 : ℚ) ^ (-39 : ℤ)) ∧
    decodeF64 MAX = .ok 0x47DFFFFFFFFFE000#64 ∧ decodeF32 MAX = .ok 0x7F000000#32 ∧
    encodeF64 0x47DFFFFFFFFFE000#64 = .ok MAX) ∧
  (EPSILON = 0x00000000005A#48 ∧ bytesOf EPSILON = ⟨0x5A#8, 0#8, 0#8, 0#8, 0#8, 0#8⟩ ∧
    packedValue EPSILON = (2 : ℚ) ^ (-39 : ℤ) ∧
    packedValue EPSILON = packedValue 0x000000000181#48 - packedValue 0x000000000081#48 ∧
    decodeF64 EPSILON = .ok 0x3D80000000000000#64 ∧ decodeF32 EPSILON = .ok 0x2C000000#32 ∧
    encodeF64 0x3D80000000000000#64 = .ok EPSILON)

/-! ## Round trips -/

/-- R164: the float round trip is exact for exponent fields 1 to 253, and what happens outside. -/
def Obligations.FloatRoundTripIsExact : Prop :=
  ∀ x : Binary32,
    (1 ≤ (F32.exp x).toNat → (F32.exp x).toNat ≤ 253 →
      ∃ p : Packed, encodeF32 x = .ok p ∧ decodeF32 p = .ok x) ∧
    ((F32.exp x).toNat = 0 →
      ∃ p : Packed, encodeF32 x = .ok p ∧ decodeF32 p = .ok 0x00000000#32) ∧
    ((F32.exp x).toNat = 254 → encodeF32 x = .error .overflow) ∧
    ((F32.exp x).toNat = 255 → encodeF32 x = .error .unrepresentable)

/-- R165: re-encoding a decoded value gives the same word again, and the decoded double is the one first
encoded exactly when that is +0.0 or is normal with its low 13 bits zero. -/
def Obligations.DoubleRoundTripIsStable : Prop :=
  ∀ (d : Binary64) (p : Packed), encodeF64 d = .ok p →
    ∃ d' : Binary64, decodeF64 p = .ok d' ∧ encodeF64 d' = .ok p ∧
      (d' = d ↔ d = 0#64 ∨ ((F64.exp d).toNat ≠ 0 ∧ d.toNat % 2 ^ 13 = 0))

/-- R166: decode then encode canonicalises, with no failure on the double path; the float path can fail. -/
def Obligations.DecodeThenEncodeCanonicalises : Prop :=
  (∀ p : Packed, ∃ d : Binary64, decodeF64 p = .ok d ∧
    encodeF64 d = .ok (if Packed.exp p = 0#8 then 0x000000000000#48 else p)) ∧
  (∀ p : Packed, Packed.exp p = 1#8 ∨ Packed.exp p = 2#8 → decodeF32 p = .error .underflow) ∧
  decodeF32 MAX = .ok 0x7F000000#32 ∧ encodeF32 0x7F000000#32 = .error .overflow

/-! ## Values (they rest on the value formula, 93_implementation_defined.md G3) -/

/-- R61, R131: decoding to a double is exact. -/
def Obligations.DecodingToDoubleIsExact : Prop :=
  ∀ p : Packed, Packed.exp p ≠ 0#8 →
    ∃ d : Binary64, decodeF64 p = .ok d ∧ 1 ≤ (F64.exp d).toNat ∧ (F64.exp d).toNat ≤ 2046
      ∧ normalValueF64 d = packedValue p

/-- R102: encoding a float is exact. -/
def Obligations.EncodingAFloatIsExact : Prop :=
  ∀ (x : Binary32) (p : Packed), (F32.exp x).toNat ≠ 0 → encodeF32 x = .ok p →
    packedValue p = normalValueF32 x

/-- R103: the rounding law of `ENC_F64`. The result is the nearest multiple of the weight of its lowest kept
place, a tie going to the larger magnitude; the error is at most `2^(E-40)`; the exponent is the operand's or,
on a carry, one more. -/
def Obligations.EncF64RoundsToNearestTiesAway : Prop :=
  ∀ (d : Binary64) (p : Packed), (F64.exp d).toNat ≠ 0 → encodeF64 d = .ok p →
    |packedValue p - normalValueF64 d| ≤ (2 : ℚ) ^ (((F64.exp d).toNat : ℤ) - 1023 - 40) ∧
    NearestTiesUp ((2 : ℚ) ^ (((Packed.exp p).toNat : ℤ) - 129 - 39))
      |normalValueF64 d| |packedValue p| ∧
    ((Packed.exp p).toNat + 894 = (F64.exp d).toNat ∨
      ((Packed.exp p).toNat + 893 = (F64.exp d).toNat
        ∧ ((F64.man d).toNat + 2 ^ 12) / 2 ^ 13 = 2 ^ 39))

/-- R138: the rounding law of `DEC_F32`. -/
def Obligations.DecF32RoundsToNearestTiesAway : Prop :=
  ∀ p : Packed, 3 ≤ (Packed.exp p).toNat →
    ∃ x : Binary32, decodeF32 p = .ok x ∧ F32.sign x = Packed.sign p ∧
      |normalValueF32 x - packedValue p| ≤ (2 : ℚ) ^ (((Packed.exp p).toNat : ℤ) - 129 - 24) ∧
      NearestTiesUp ((2 : ℚ) ^ (((Packed.exp p).toNat : ℤ) - 129 - 23))
        |packedValue p| |normalValueF32 x|

/-- R172: the ranges of magnitude that each operation accepts with a nonzero result. -/
def Obligations.AcceptedRangesOfMagnitude : Prop :=
  (∀ d : Binary64, 1 ≤ (F64.exp d).toNat → (F64.exp d).toNat ≤ 2046 →
    ((∃ p : Packed, encodeF64 d = .ok p ∧ p ≠ 0#48) ↔
      (2 : ℚ) ^ (-128 : ℤ) ≤ |normalValueF64 d|
        ∧ |normalValueF64 d| < (2 : ℚ) ^ (127 : ℤ) - (2 : ℚ) ^ (86 : ℤ))) ∧
  (∀ x : Binary32, 1 ≤ (F32.exp x).toNat → (F32.exp x).toNat ≤ 254 →
    ((∃ p : Packed, encodeF32 x = .ok p ∧ p ≠ 0#48) ↔
      (2 : ℚ) ^ (-126 : ℤ) ≤ |normalValueF32 x| ∧ |normalValueF32 x| < (2 : ℚ) ^ (127 : ℤ))) ∧
  (∀ p : Packed,
    ((∃ x : Binary32, decodeF32 p = .ok x ∧ x ≠ 0#32) ↔
      (2 : ℚ) ^ (-126 : ℤ) ≤ |packedValue p|) ∧
    ((2 : ℚ) ^ (-126 : ℤ) ≤ |packedValue p| ↔ 3 ≤ (Packed.exp p).toNat) ∧
    |packedValue p| ≤ packedValue MAX)
end

