-- ==== Sys2Proof/Laws/Decode.lean ====
section
/-! SUPPORT. The two parts of a request, and what decoding does for each operation code (30_encoding.md
R68, R69). -/

namespace Sys2Proof

theorem requestOf_toNat (op : BitVec 2) (v : BitVec 64) :
    (requestOf op v).toNat = op.toNat * 2 ^ 64 + v.toNat := by
  have h : (op ++ v).toNat = op.toNat * 2 ^ 64 + v.toNat := by
    rw [BitVec.toNat_append, ← Nat.shiftLeft_add_eq_or_of_lt v.isLt, Nat.shiftLeft_eq]
  exact h

theorem opOf_toNat (r : Request) : (opOf r).toNat = r.toNat / 2 ^ 64 := by
  simp [opOf, Nat.shiftRight_eq_div_pow]
  omega

theorem operandOf_toNat (r : Request) : (operandOf r).toNat = r.toNat % 2 ^ 64 := by
  simp [operandOf]

@[simp] theorem opOf_requestOf (op : BitVec 2) (v : BitVec 64) : opOf (requestOf op v) = op := by
  apply BitVec.eq_of_toNat_eq
  rw [opOf_toNat, requestOf_toNat]
  omega

@[simp] theorem operandOf_requestOf (op : BitVec 2) (v : BitVec 64) :
    operandOf (requestOf op v) = v := by
  apply BitVec.eq_of_toNat_eq
  rw [operandOf_toNat, requestOf_toNat]
  omega

/-- A request is its operation code above its operand. -/
theorem requestOf_parts (r : Request) : requestOf (opOf r) (operandOf r) = r := by
  apply BitVec.eq_of_toNat_eq
  rw [requestOf_toNat, opOf_toNat, operandOf_toNat]
  omega

theorem decode_of_op_00 {r : Request} (h : opOf r = 0b00#2) : decode r = .encF64 (operandOf r) := by
  simp [decode, h]

theorem decode_of_op_01 {r : Request} (h : opOf r = 0b01#2) :
    decode r = .encF32 (floatOperand (operandOf r)) := by
  simp [decode, h]

theorem decode_of_op_10 {r : Request} (h : opOf r = 0b10#2) :
    decode r = .decF64 (packedOperand (operandOf r)) := by
  simp [decode, h]

theorem decode_of_op_11 {r : Request} (h : opOf r = 0b11#2) :
    decode r = .decF32 (packedOperand (operandOf r)) := by
  simp [decode, h]

/-- All four operation codes are assigned (R75). -/
theorem op_cases (op : BitVec 2) : op = 0b00#2 ∨ op = 0b01#2 ∨ op = 0b10#2 ∨ op = 0b11#2 := by
  revert op; decide

theorem floatOperand_toNat (v : BitVec 64) : (floatOperand v).toNat = v.toNat % 2 ^ 32 := by
  simp [floatOperand]

theorem packedOperand_toNat (v : BitVec 64) : (packedOperand v).toNat = v.toNat % 2 ^ 48 := by
  simp [packedOperand]

/-- A float in a 64-bit operand is found again in it. -/
@[simp] theorem floatOperand_setWidth (x : Binary32) : floatOperand (x.setWidth 64) = x := by
  apply BitVec.eq_of_toNat_eq
  rw [floatOperand_toNat]
  simp
  omega

/-- A packed word in a 64-bit container is found again in it (R43). -/
@[simp] theorem packedOperand_setWidth (p : Packed) : packedOperand (p.setWidth 64) = p := by
  apply BitVec.eq_of_toNat_eq
  rw [packedOperand_toNat]
  simp
  omega

end Sys2Proof
end

