-- ==== Sys2Proof/Laws/Operands.lean ====
section
/-! SUPPORT. Each field of a format as a quotient and remainder of the word, each assembled word as the sum
of its weighted fields, and the two directions of "fields of an assembled word" (30_encoding.md R60, R65,
R66, R74; 40_encoder.md R100; 41_decoder.md R130). -/

namespace Sys2Proof.Machine

/-- Three slices side by side, as a number. -/
theorem toNat_append_three {a b c : Nat} (s : BitVec a) (m : BitVec b) (e : BitVec c) :
    (s ++ m ++ e).toNat = s.toNat * 2 ^ (b + c) + m.toNat * 2 ^ c + e.toNat := by
  rw [BitVec.toNat_append, BitVec.toNat_append, Nat.shiftLeft_eq, Nat.shiftLeft_eq,
    ← Nat.shiftLeft_eq, ← Nat.shiftLeft_eq, ← Nat.shiftLeft_add_eq_or_of_lt e.isLt,
    ← Nat.shiftLeft_add_eq_or_of_lt m.isLt]
  simp only [Nat.shiftLeft_eq]
  ring

/-! ## The packed word -/

theorem packed_exp_toNat (p : Packed) : (Packed.exp p).toNat = p.toNat % 2 ^ 8 := by
  simp [Packed.exp]

theorem packed_man_toNat (p : Packed) : (Packed.man p).toNat = p.toNat / 2 ^ 8 % 2 ^ 39 := by
  simp [Packed.man, Nat.shiftRight_eq_div_pow]

theorem packed_sign_toNat (p : Packed) : (Packed.sign p).toNat = p.toNat / 2 ^ 47 := by
  simp [Packed.sign, Nat.shiftRight_eq_div_pow]
  omega

theorem packed_ofFields_toNat (s : BitVec 1) (m : BitVec 39) (e : BitVec 8) :
    (Packed.ofFields s m e).toNat = s.toNat * 2 ^ 47 + m.toNat * 2 ^ 8 + e.toNat :=
  toNat_append_three s m e

@[simp] theorem packed_exp_ofFields (s : BitVec 1) (m : BitVec 39) (e : BitVec 8) :
    Packed.exp (Packed.ofFields s m e) = e := by
  apply BitVec.eq_of_toNat_eq
  rw [packed_exp_toNat, packed_ofFields_toNat]
  omega

@[simp] theorem packed_man_ofFields (s : BitVec 1) (m : BitVec 39) (e : BitVec 8) :
    Packed.man (Packed.ofFields s m e) = m := by
  apply BitVec.eq_of_toNat_eq
  rw [packed_man_toNat, packed_ofFields_toNat]
  omega

@[simp] theorem packed_sign_ofFields (s : BitVec 1) (m : BitVec 39) (e : BitVec 8) :
    Packed.sign (Packed.ofFields s m e) = s := by
  apply BitVec.eq_of_toNat_eq
  rw [packed_sign_toNat, packed_ofFields_toNat]
  omega

theorem packed_ofFields_fields (p : Packed) :
    Packed.ofFields (Packed.sign p) (Packed.man p) (Packed.exp p) = p := by
  apply BitVec.eq_of_toNat_eq
  rw [packed_ofFields_toNat, packed_exp_toNat, packed_man_toNat, packed_sign_toNat]
  omega

/-- Two packed words with the same three fields are the same word. -/
theorem packed_ext {p q : Packed} (hs : Packed.sign p = Packed.sign q)
    (hm : Packed.man p = Packed.man q) (he : Packed.exp p = Packed.exp q) : p = q := by
  rw [← packed_ofFields_fields p, hs, hm, he, packed_ofFields_fields]

/-! ## The double -/

theorem f64_exp_toNat (d : Binary64) : (F64.exp d).toNat = d.toNat / 2 ^ 52 % 2 ^ 11 := by
  simp [F64.exp, Nat.shiftRight_eq_div_pow]

theorem f64_man_toNat (d : Binary64) : (F64.man d).toNat = d.toNat % 2 ^ 52 := by
  simp [F64.man]

theorem f64_sign_toNat (d : Binary64) : (F64.sign d).toNat = d.toNat / 2 ^ 63 := by
  simp [F64.sign, Nat.shiftRight_eq_div_pow]
  omega

theorem f64_assemble_toNat (s : BitVec 1) (e : Int) (f : Nat) :
    (F64.assemble s e f).toNat
      = s.toNat * 2 ^ 63 + (BitVec.ofInt 11 e).toNat * 2 ^ 52 + f % 2 ^ 52 := by
  rw [show f % 2 ^ 52 = (BitVec.ofNat 52 f).toNat from (BitVec.toNat_ofNat f 52).symm]
  exact toNat_append_three s (BitVec.ofInt 11 e) (BitVec.ofNat 52 f)

@[simp] theorem f64_exp_assemble (s : BitVec 1) (e : Int) (f : Nat) :
    F64.exp (F64.assemble s e f) = BitVec.ofInt 11 e := by
  apply BitVec.eq_of_toNat_eq
  rw [f64_exp_toNat, f64_assemble_toNat]
  omega

@[simp] theorem f64_man_assemble (s : BitVec 1) (e : Int) (f : Nat) :
    F64.man (F64.assemble s e f) = BitVec.ofNat 52 f := by
  apply BitVec.eq_of_toNat_eq
  rw [f64_man_toNat, f64_assemble_toNat, BitVec.toNat_ofNat]
  omega

@[simp] theorem f64_sign_assemble (s : BitVec 1) (e : Int) (f : Nat) :
    F64.sign (F64.assemble s e f) = s := by
  apply BitVec.eq_of_toNat_eq
  rw [f64_sign_toNat, f64_assemble_toNat]
  omega

/-- Two doubles with the same three fields are the same double. -/
theorem f64_ext {d d' : Binary64} (hs : F64.sign d = F64.sign d') (he : F64.exp d = F64.exp d')
    (hm : F64.man d = F64.man d') : d = d' := by
  apply BitVec.eq_of_toNat_eq
  have hs := congrArg BitVec.toNat hs
  have he := congrArg BitVec.toNat he
  have hm := congrArg BitVec.toNat hm
  rw [f64_sign_toNat, f64_sign_toNat] at hs
  rw [f64_exp_toNat, f64_exp_toNat] at he
  rw [f64_man_toNat, f64_man_toNat] at hm
  omega

/-! ## The float -/

theorem f32_exp_toNat (x : Binary32) : (F32.exp x).toNat = x.toNat / 2 ^ 23 % 2 ^ 8 := by
  simp [F32.exp, Nat.shiftRight_eq_div_pow]

theorem f32_man_toNat (x : Binary32) : (F32.man x).toNat = x.toNat % 2 ^ 23 := by
  simp [F32.man]

theorem f32_sign_toNat (x : Binary32) : (F32.sign x).toNat = x.toNat / 2 ^ 31 := by
  simp [F32.sign, Nat.shiftRight_eq_div_pow]
  omega

theorem f32_assemble_toNat (s : BitVec 1) (e : Int) (m : Nat) :
    (F32.assemble s e m).toNat
      = s.toNat * 2 ^ 31 + (BitVec.ofInt 8 e).toNat * 2 ^ 23 + m % 2 ^ 23 := by
  rw [show m % 2 ^ 23 = (BitVec.ofNat 23 m).toNat from (BitVec.toNat_ofNat m 23).symm]
  exact toNat_append_three s (BitVec.ofInt 8 e) (BitVec.ofNat 23 m)

@[simp] theorem f32_exp_assemble (s : BitVec 1) (e : Int) (m : Nat) :
    F32.exp (F32.assemble s e m) = BitVec.ofInt 8 e := by
  apply BitVec.eq_of_toNat_eq
  rw [f32_exp_toNat, f32_assemble_toNat]
  omega

@[simp] theorem f32_man_assemble (s : BitVec 1) (e : Int) (m : Nat) :
    F32.man (F32.assemble s e m) = BitVec.ofNat 23 m := by
  apply BitVec.eq_of_toNat_eq
  rw [f32_man_toNat, f32_assemble_toNat, BitVec.toNat_ofNat]
  omega

@[simp] theorem f32_sign_assemble (s : BitVec 1) (e : Int) (m : Nat) :
    F32.sign (F32.assemble s e m) = s := by
  apply BitVec.eq_of_toNat_eq
  rw [f32_sign_toNat, f32_assemble_toNat]
  omega

/-- Two floats with the same three fields are the same float. -/
theorem f32_ext {x y : Binary32} (hs : F32.sign x = F32.sign y) (he : F32.exp x = F32.exp y)
    (hm : F32.man x = F32.man y) : x = y := by
  apply BitVec.eq_of_toNat_eq
  have hs := congrArg BitVec.toNat hs
  have he := congrArg BitVec.toNat he
  have hm := congrArg BitVec.toNat hm
  rw [f32_sign_toNat, f32_sign_toNat] at hs
  rw [f32_exp_toNat, f32_exp_toNat] at he
  rw [f32_man_toNat, f32_man_toNat] at hm
  omega

/-! ## `pack` and the classes -/

/-- R100: inside its ranges `pack` cuts no bit off, so the fields of the word are its arguments. -/
theorem pack_fields (s : BitVec 1) {e : Int} {m : Nat} (he0 : 0 ≤ e) (he : e ≤ 255) (hm : m < 2 ^ 39) :
    Packed.sign (pack s e m) = s ∧ ((Packed.exp (pack s e m)).toNat : Int) = e
      ∧ (Packed.man (pack s e m)).toNat = m := by
  refine ⟨by simp [pack], ?_, ?_⟩
  · simp only [pack, packed_exp_ofFields, BitVec.toNat_ofInt]
    omega
  · simp only [pack, packed_man_ofFields, BitVec.toNat_ofNat]
    omega

theorem ofInt_toNat (w : Nat) {e : Int} (he0 : 0 ≤ e) (he : e < 2 ^ w) :
    ((BitVec.ofInt w e).toNat : Int) = e := by
  rw [BitVec.toNat_ofInt]
  have h : e % ((2 ^ w : Nat) : Int) = e := Int.emod_eq_of_lt he0 (by exact_mod_cast he)
  rw [h, Int.toNat_of_nonneg he0]

theorem f64_cls_nonFinite (d : Binary64) : F64.cls d = .nonFinite ↔ (F64.exp d).toNat = 2047 := by
  unfold F64.cls ieeeClass; split <;> (try split) <;> simp_all

theorem f64_cls_zero (d : Binary64) : F64.cls d = .zeroOrSubnormal ↔ (F64.exp d).toNat = 0 := by
  unfold F64.cls ieeeClass; split <;> (try split) <;> simp_all

theorem f32_cls_nonFinite (x : Binary32) : F32.cls x = .nonFinite ↔ (F32.exp x).toNat = 255 := by
  unfold F32.cls ieeeClass; split <;> (try split) <;> simp_all

theorem f32_cls_zero (x : Binary32) : F32.cls x = .zeroOrSubnormal ↔ (F32.exp x).toNat = 0 := by
  unfold F32.cls ieeeClass; split <;> (try split) <;> simp_all

/-! ## Inverting the sign bit (R108, R170) -/

/-- Inverting bit 63 of a double inverts its sign and leaves the other fields. -/
theorem f64_flip_sign (d : Binary64) :
    F64.sign (d ^^^ 0x8000000000000000#64) = F64.sign d ^^^ 1#1
      ∧ F64.exp (d ^^^ 0x8000000000000000#64) = F64.exp d
      ∧ F64.man (d ^^^ 0x8000000000000000#64) = F64.man d := by
  refine ⟨?_, ?_, ?_⟩
  · rw [F64.sign, BitVec.extractLsb'_xor]; rfl
  · rw [F64.exp, BitVec.extractLsb'_xor]; exact BitVec.xor_zero
  · rw [F64.man, BitVec.extractLsb'_xor]; exact BitVec.xor_zero

/-- Inverting bit 31 of a float inverts its sign and leaves the other fields. -/
theorem f32_flip_sign (x : Binary32) :
    F32.sign (x ^^^ 0x80000000#32) = F32.sign x ^^^ 1#1
      ∧ F32.exp (x ^^^ 0x80000000#32) = F32.exp x ∧ F32.man (x ^^^ 0x80000000#32) = F32.man x := by
  refine ⟨?_, ?_, ?_⟩
  · rw [F32.sign, BitVec.extractLsb'_xor]; rfl
  · rw [F32.exp, BitVec.extractLsb'_xor]; exact BitVec.xor_zero
  · rw [F32.man, BitVec.extractLsb'_xor]; exact BitVec.xor_zero

/-- Inverting bit 47 of a packed word inverts its sign and leaves the other fields. -/
theorem packed_flip_sign (p : Packed) :
    Packed.sign (p ^^^ 0x800000000000#48) = Packed.sign p ^^^ 1#1
      ∧ Packed.exp (p ^^^ 0x800000000000#48) = Packed.exp p
      ∧ Packed.man (p ^^^ 0x800000000000#48) = Packed.man p := by
  refine ⟨?_, ?_, ?_⟩
  · rw [Packed.sign, BitVec.extractLsb'_xor]; rfl
  · rw [Packed.exp, BitVec.extractLsb'_xor]; exact BitVec.xor_zero
  · rw [Packed.man, BitVec.extractLsb'_xor]; exact BitVec.xor_zero

/-- A packed exponent is nonzero exactly when its number is at least 1. -/
theorem packed_exp_ne_zero_iff {p : Packed} : Packed.exp p ≠ 0#8 ↔ 1 ≤ (Packed.exp p).toNat := by
  constructor
  · intro h
    by_contra h'
    apply h
    apply BitVec.eq_of_toNat_eq
    simp at h' ⊢
    omega
  · intro h h0
    rw [h0] at h
    simp at h

/-- A word with a nonzero packed exponent is not the canonical zero. -/
theorem ne_canonicalZero {p : Packed} (h : 1 ≤ (Packed.exp p).toNat) : p ≠ 0#48 := by
  rintro rfl
  rw [show Packed.exp 0#48 = 0#8 by decide] at h
  simp at h

end Sys2Proof.Machine
end

