-- ==== Sys2Proof/Laws/Ops.lean ====
section
/-! SUPPORT. What each shared operation can do, said once. -/

namespace Sys2Proof.Machine

@[simp] theorem result_map_ok {α β : Type} (g : α → β) (v : α) : (Result.ok v).map g = .ok (g v) := rfl
@[simp] theorem result_map_error {α β : Type} (g : α → β) (k : ErrorKind) :
    (Result.error k : Result α).map g = .error k := rfl

/-- The shift of a rounding is the floor division the spec writes beside it (R9). -/
theorem roundHalfUp_eq_div (half drop f : Nat) : roundHalfUp half drop f = (f + half) / 2 ^ drop := by
  rw [roundHalfUp, Nat.shiftRight_eq_div_pow]

/-- A mantissa of `width + drop` bits rounds to at most `2^width`. -/
theorem roundHalfUp_le {width drop half f : Nat} (hh : half ≤ 2 ^ drop)
    (hf : f < 2 ^ (width + drop)) : roundHalfUp half drop f ≤ 2 ^ width := by
  rw [roundHalfUp_eq_div, ← Nat.lt_succ_iff, Nat.div_lt_iff_lt_mul (by positivity)]
  have h : (2 ^ width).succ * 2 ^ drop = 2 ^ (width + drop) + 2 ^ drop := by
    rw [Nat.succ_mul, pow_add]
  omega

theorem narrow_underflow {limit e : Int} (width half drop f : Nat) (h : e ≤ 0) :
    narrow limit width half drop e f = .error .underflow := by
  simp [narrow, checkRange, h]

theorem narrow_overflow {limit e : Int} (width half drop f : Nat) (h0 : 0 < e) (h : limit < e) :
    narrow limit width half drop e f = .error .overflow := by
  have : ¬ e ≤ 0 := by omega
  simp [narrow, checkRange, this, h]

theorem narrow_no_carry {limit e : Int} {width half drop f : Nat} (h0 : 0 < e) (h : e ≤ limit)
    (hm : roundHalfUp half drop f ≠ 2 ^ width) :
    narrow limit width half drop e f = .ok (e, roundHalfUp half drop f) := by
  have h1 : ¬ e ≤ 0 := by omega
  have h2 : ¬ limit < e := by omega
  simp [narrow, checkRange, carryInto, h1, h2, hm]

theorem narrow_carry {limit e : Int} {width half drop f : Nat} (h0 : 0 < e) (h : e < limit)
    (hm : roundHalfUp half drop f = 2 ^ width) :
    narrow limit width half drop e f = .ok (e + 1, 0) := by
  have h1 : ¬ e ≤ 0 := by omega
  have h2 : ¬ limit < e := by omega
  have h3 : ¬ limit < e + 1 := by omega
  simp [narrow, checkRange, carryInto, h1, h2, h3, hm]

theorem narrow_carry_overflow {limit e : Int} {width half drop f : Nat} (h0 : 0 < e) (h : e = limit)
    (hm : roundHalfUp half drop f = 2 ^ width) :
    narrow limit width half drop e f = .error .overflow := by
  have h1 : ¬ e ≤ 0 := by omega
  have h2 : ¬ limit < e := by omega
  have h3 : limit < e + 1 := by omega
  simp [narrow, checkRange, carryInto, h1, h2, h3, hm]

/-- When `narrow` succeeds the exponent lies in 1 to `limit` and is the one given or its successor. -/
theorem narrow_ok {limit e e' : Int} {width half drop f m : Nat}
    (h : narrow limit width half drop e f = .ok (e', m)) :
    0 < e ∧ e ≤ limit ∧ 0 < e' ∧ e' ≤ limit
      ∧ ((roundHalfUp half drop f ≠ 2 ^ width ∧ e' = e ∧ m = roundHalfUp half drop f)
        ∨ (roundHalfUp half drop f = 2 ^ width ∧ e' = e + 1 ∧ m = 0)) := by
  rcases Int.lt_or_le 0 e with h0 | h0
  · rcases Int.lt_or_le limit e with hl | hl
    · rw [narrow_overflow _ _ _ _ h0 hl] at h; cases h
    · by_cases hm : roundHalfUp half drop f = 2 ^ width
      · rcases Int.lt_or_eq_of_le hl with hlt | heq
        · rw [narrow_carry h0 hlt hm] at h
          cases h
          exact ⟨h0, hl, by omega, by omega, .inr ⟨hm, rfl, rfl⟩⟩
        · rw [narrow_carry_overflow h0 heq hm] at h; cases h
      · rw [narrow_no_carry h0 hl hm] at h
        cases h
        exact ⟨h0, hl, h0, hl, .inl ⟨hm, rfl, rfl⟩⟩
  · rw [narrow_underflow _ _ _ _ h0] at h; cases h

/-- Byte `i` of the packed form as a number (R40). -/
theorem packedByte_toNat (p : Packed) (i : Nat) :
    (packedByte p i).toNat = p.toNat / 2 ^ (8 * i) % 2 ^ 8 := by
  simp [packedByte, Nat.shiftRight_eq_div_pow]

/-- `word_of` as a number (R42). -/
theorem wordOf_toNat (b : PackedBytes) :
    (wordOf b).toNat = b.b5.toNat * 2 ^ 40 + b.b4.toNat * 2 ^ 32 + b.b3.toNat * 2 ^ 24
      + b.b2.toNat * 2 ^ 16 + b.b1.toNat * 2 ^ 8 + b.b0.toNat := by
  have two : ∀ {a c : Nat} (x : BitVec a) (y : BitVec c), (x ++ y).toNat = x.toNat * 2 ^ c + y.toNat := by
    intro a c x y
    rw [BitVec.toNat_append, ← Nat.shiftLeft_add_eq_or_of_lt y.isLt, Nat.shiftLeft_eq]
  have h : (b.b5 ++ b.b4 ++ b.b3 ++ b.b2 ++ b.b1 ++ b.b0).toNat = b.b5.toNat * 2 ^ 40
      + b.b4.toNat * 2 ^ 32 + b.b3.toNat * 2 ^ 24 + b.b2.toNat * 2 ^ 16 + b.b1.toNat * 2 ^ 8
      + b.b0.toNat := by
    rw [two, two, two, two, two]
    ring
  exact h

/-- A request is taken exactly when the reset input is released and one is waiting; taking it leaves all
else alone. -/
theorem takeRequest_some_iff (s s' : State) (r : Request) :
    takeRequest s = some (r, s') ↔
      s.resetAsserted = false ∧ s.requests = r :: s'.requests ∧ s'.encResponses = s.encResponses
        ∧ s'.decResponses = s.decResponses ∧ s'.resetAsserted = false := by
  obtain ⟨rs, es, ds, b⟩ := s
  obtain ⟨rs', es', ds', b'⟩ := s'
  cases b <;> cases rs <;> simp [takeRequest]
  aesop

theorem takeRequest_none_iff (s : State) :
    takeRequest s = none ↔ s.resetAsserted = true ∨ s.requests = [] := by
  obtain ⟨rs, es, ds, b⟩ := s
  cases b <;> cases rs <;> simp [takeRequest]

end Sys2Proof.Machine
end

