-- ==== Sys2Proof/Laws/Decoder.lean ====
section
/-! SUPPORT. What the decoder's two functions give, once for each way through their pseudocode
(41_decoder.md R131, R132). -/

namespace Sys2Proof.Machine

/-- The rounded mantissa of `DEC_F32`, R132. -/
abbrev roundedMan32 (p : Packed) : Nat := roundHalfUp ROUND32 SHIFT32 (Packed.man p).toNat

theorem roundedMan32_le (p : Packed) : roundedMan32 p ≤ 2 ^ 23 :=
  roundHalfUp_le (by decide) (Packed.man p).isLt

theorem decodeF64_zero {p : Packed} (h : Packed.exp p = 0#8) : decodeF64 p = .ok 0#64 := by
  simp [decodeF64, unpack, h]

theorem decodeF64_normal {p : Packed} (h : Packed.exp p ≠ 0#8) :
    decodeF64 p = .ok (F64.assemble (Packed.sign p) ((Packed.exp p).toNat + 894)
      ((Packed.man p).toNat * 2 ^ 13)) := by
  have e : ((Packed.exp p).toNat : Int) - 129 + 1023 = (Packed.exp p).toNat + 894 := by omega
  simp [decodeF64, unpack, h, e, SHIFT64, Nat.shiftLeft_eq]

theorem decodeF32_zero {p : Packed} (h : Packed.exp p = 0#8) : decodeF32 p = .ok 0#32 := by
  simp [decodeF32, unpack, h]

theorem decodeF32_nonzero {p : Packed} (h : Packed.exp p ≠ 0#8) :
    decodeF32 p = (narrow 254 23 ROUND32 SHIFT32 ((Packed.exp p).toNat - 2) (Packed.man p).toNat).map
      fun (e, m) => F32.assemble (Packed.sign p) e m := by
  simp only [decodeF32, unpack, h, if_false]
  rfl

theorem decodeF32_underflow {p : Packed} (h0 : 1 ≤ (Packed.exp p).toNat)
    (h : (Packed.exp p).toNat ≤ 2) : decodeF32 p = .error .underflow := by
  rw [decodeF32_nonzero (packed_exp_ne_zero_iff.mpr h0), narrow_underflow _ _ _ _ (by omega)]
  rfl

theorem decodeF32_round {p : Packed} (h0 : 3 ≤ (Packed.exp p).toNat) (hm : roundedMan32 p ≠ 2 ^ 23) :
    decodeF32 p = .ok (F32.assemble (Packed.sign p) ((Packed.exp p).toNat - 2) (roundedMan32 p)) := by
  have := (Packed.exp p).isLt
  rw [decodeF32_nonzero (packed_exp_ne_zero_iff.mpr (by omega)), narrow_no_carry (by omega) (by omega) hm]
  rfl

theorem decodeF32_carry {p : Packed} (h0 : 3 ≤ (Packed.exp p).toNat) (hm : roundedMan32 p = 2 ^ 23) :
    decodeF32 p = .ok (F32.assemble (Packed.sign p) ((Packed.exp p).toNat - 2 + 1) 0) := by
  have := (Packed.exp p).isLt
  rw [decodeF32_nonzero (packed_exp_ne_zero_iff.mpr (by omega)), narrow_carry (by omega) (by omega) hm]
  rfl

/-- What `DEC_F64` gives for a word that is no zero pattern, field by field. -/
theorem decodeF64_fields {p : Packed} (h : Packed.exp p ≠ 0#8) :
    ∃ d, decodeF64 p = .ok d ∧ F64.sign d = Packed.sign p
      ∧ (F64.exp d).toNat = (Packed.exp p).toNat + 894
      ∧ (F64.man d).toNat = (Packed.man p).toNat * 2 ^ 13 := by
  have := (Packed.exp p).isLt
  have := (Packed.man p).isLt
  refine ⟨_, decodeF64_normal h, f64_sign_assemble _ _ _, ?_, ?_⟩
  · rw [f64_exp_assemble, BitVec.toNat_ofInt]
    omega
  · rw [f64_man_assemble, BitVec.toNat_ofNat]
    omega

/-- What `DEC_F32` gives for a packed exponent of 3 or more, field by field. -/
theorem decodeF32_fields {p : Packed} (h : 3 ≤ (Packed.exp p).toNat) :
    ∃ x, decodeF32 p = .ok x ∧ F32.sign x = Packed.sign p ∧
      ((roundedMan32 p < 2 ^ 23 ∧ (F32.exp x).toNat + 2 = (Packed.exp p).toNat
          ∧ (F32.man x).toNat = roundedMan32 p) ∨
       (roundedMan32 p = 2 ^ 23 ∧ (F32.exp x).toNat + 1 = (Packed.exp p).toNat
          ∧ (F32.man x).toNat = 0)) := by
  have := (Packed.exp p).isLt
  have hm := roundedMan32_le p
  by_cases hc : roundedMan32 p = 2 ^ 23
  · refine ⟨_, decodeF32_carry h hc, f32_sign_assemble _ _ _, .inr ⟨hc, ?_, ?_⟩⟩
    · rw [f32_exp_assemble, BitVec.toNat_ofInt]
      omega
    · rw [f32_man_assemble]
      rfl
  · refine ⟨_, decodeF32_round h hc, f32_sign_assemble _ _ _, .inl ⟨by omega, ?_, ?_⟩⟩
    · rw [f32_exp_assemble, BitVec.toNat_ofInt]
      omega
    · rw [f32_man_assemble, BitVec.toNat_ofNat]
      omega

end Sys2Proof.Machine
end

