-- ==== Sys2Proof/Laws/Encoder.lean ====
section
/-! SUPPORT. What the encoder's two functions give, once for each way through their pseudocode
(40_encoder.md R101, R102). -/

namespace Sys2Proof.Machine

/-- The rounded mantissa of `ENC_F64`, R101 step 5. -/
abbrev roundedMan64 (d : Binary64) : Nat := roundHalfUp ROUND64 SHIFT64 (F64.man d).toNat

theorem roundedMan64_le (d : Binary64) : roundedMan64 d ≤ 2 ^ 39 :=
  roundHalfUp_le (by decide) (F64.man d).isLt

theorem encodeF64_nonFinite {d : Binary64} (h : (F64.exp d).toNat = 2047) :
    encodeF64 d = .error .unrepresentable := by
  simp [encodeF64, (f64_cls_nonFinite d).mpr h]

theorem encodeF64_zero {d : Binary64} (h : (F64.exp d).toNat = 0) :
    encodeF64 d = .ok canonicalZero := by
  simp [encodeF64, (f64_cls_zero d).mpr h]

theorem encodeF64_normal {d : Binary64} (h0 : (F64.exp d).toNat ≠ 0) (h : (F64.exp d).toNat ≠ 2047) :
    encodeF64 d
      = (narrow 255 39 ROUND64 SHIFT64 ((F64.exp d).toNat - 894) (F64.man d).toNat).map
          fun (pe, m) => pack (F64.sign d) pe m := by
  simp only [encodeF64, F64.cls, ieeeClass, h0, h, if_false]

theorem encodeF64_underflow {d : Binary64} (h0 : 1 ≤ (F64.exp d).toNat) (h : (F64.exp d).toNat ≤ 894) :
    encodeF64 d = .error .underflow := by
  rw [encodeF64_normal (by omega) (by omega), narrow_underflow _ _ _ _ (by omega)]
  rfl

theorem encodeF64_overflow {d : Binary64} (h0 : 1150 ≤ (F64.exp d).toNat)
    (h : (F64.exp d).toNat ≤ 2046) : encodeF64 d = .error .overflow := by
  rw [encodeF64_normal (by omega) (by omega), narrow_overflow _ _ _ _ (by omega) (by omega)]
  rfl

theorem encodeF64_round {d : Binary64} (h0 : 895 ≤ (F64.exp d).toNat) (h : (F64.exp d).toNat ≤ 1149)
    (hm : roundedMan64 d ≠ 2 ^ 39) :
    encodeF64 d = .ok (pack (F64.sign d) ((F64.exp d).toNat - 894) (roundedMan64 d)) := by
  rw [encodeF64_normal (by omega) (by omega), narrow_no_carry (by omega) (by omega) hm]
  rfl

theorem encodeF64_carry {d : Binary64} (h0 : 895 ≤ (F64.exp d).toNat) (h : (F64.exp d).toNat ≤ 1148)
    (hm : roundedMan64 d = 2 ^ 39) :
    encodeF64 d = .ok (pack (F64.sign d) ((F64.exp d).toNat - 894 + 1) 0) := by
  rw [encodeF64_normal (by omega) (by omega), narrow_carry (by omega) (by omega) hm]
  rfl

theorem encodeF64_carry_overflow {d : Binary64} (h : (F64.exp d).toNat = 1149)
    (hm : roundedMan64 d = 2 ^ 39) : encodeF64 d = .error .overflow := by
  rw [encodeF64_normal (by omega) (by omega), narrow_carry_overflow (by omega) (by omega) hm]
  rfl

theorem encodeF32_nonFinite {x : Binary32} (h : (F32.exp x).toNat = 255) :
    encodeF32 x = .error .unrepresentable := by
  simp [encodeF32, (f32_cls_nonFinite x).mpr h]

theorem encodeF32_zero {x : Binary32} (h : (F32.exp x).toNat = 0) :
    encodeF32 x = .ok canonicalZero := by
  simp [encodeF32, (f32_cls_zero x).mpr h]

theorem encodeF32_overflow {x : Binary32} (h : (F32.exp x).toNat = 254) :
    encodeF32 x = .error .overflow := by
  simp [encodeF32, F32.cls, ieeeClass, checkRange, h]

theorem encodeF32_normal {x : Binary32} (h0 : 1 ≤ (F32.exp x).toNat) (h : (F32.exp x).toNat ≤ 253) :
    encodeF32 x = .ok (pack (F32.sign x) ((F32.exp x).toNat + 2) ((F32.man x).toNat * 2 ^ 16)) := by
  have h1 : (F32.exp x).toNat ≠ 0 := by omega
  have h2 : (F32.exp x).toNat ≠ 255 := by omega
  have h3 : ¬ ((F32.exp x).toNat : Int) + 2 ≤ 0 := by omega
  have h4 : ¬ 255 < ((F32.exp x).toNat : Int) + 2 := by omega
  simp [encodeF32, F32.cls, ieeeClass, checkRange, h1, h2, h3, h4, Nat.shiftLeft_eq]

/-- Everything a success of `ENC_F64` can be: the canonical zero, a rounding, or a rounding with carry. -/
theorem encodeF64_ok {d : Binary64} {p : Packed} (h : encodeF64 d = .ok p) :
    ((F64.exp d).toNat = 0 ∧ p = canonicalZero) ∨
    (895 ≤ (F64.exp d).toNat ∧ (F64.exp d).toNat ≤ 1149 ∧ roundedMan64 d < 2 ^ 39
      ∧ Packed.sign p = F64.sign d ∧ (Packed.exp p).toNat + 894 = (F64.exp d).toNat
      ∧ (Packed.man p).toNat = roundedMan64 d) ∨
    (895 ≤ (F64.exp d).toNat ∧ (F64.exp d).toNat ≤ 1148 ∧ roundedMan64 d = 2 ^ 39
      ∧ Packed.sign p = F64.sign d ∧ (Packed.exp p).toNat + 893 = (F64.exp d).toNat
      ∧ (Packed.man p).toNat = 0) := by
  have hm := roundedMan64_le d
  have hl := (F64.exp d).isLt
  by_cases h0 : (F64.exp d).toNat = 0
  · rw [encodeF64_zero h0] at h
    cases h
    exact .inl ⟨h0, rfl⟩
  by_cases h1 : (F64.exp d).toNat ≤ 894
  · rw [encodeF64_underflow (by omega) h1] at h; cases h
  by_cases h2 : (F64.exp d).toNat = 2047
  · rw [encodeF64_nonFinite h2] at h; cases h
  by_cases h3 : 1150 ≤ (F64.exp d).toNat
  · rw [encodeF64_overflow h3 (by omega)] at h; cases h
  by_cases h4 : roundedMan64 d = 2 ^ 39
  · by_cases h5 : (F64.exp d).toNat = 1149
    · rw [encodeF64_carry_overflow h5 h4] at h; cases h
    · rw [encodeF64_carry (by omega) (by omega) h4] at h
      cases h
      have hp := pack_fields (F64.sign d) (e := (F64.exp d).toNat - 894 + 1) (m := 0)
        (by omega) (by omega) (by omega)
      exact .inr (.inr ⟨by omega, by omega, h4, hp.1, by omega, hp.2.2⟩)
  · rw [encodeF64_round (by omega) (by omega) h4] at h
    cases h
    have hp := pack_fields (F64.sign d) (e := (F64.exp d).toNat - 894) (m := roundedMan64 d)
      (by omega) (by omega) (by omega)
    exact .inr (.inl ⟨by omega, by omega, by omega, hp.1, by omega, hp.2.2⟩)

/-- Everything a success of `ENC_F32` can be: the canonical zero, or an exact widening. -/
theorem encodeF32_ok {x : Binary32} {p : Packed} (h : encodeF32 x = .ok p) :
    ((F32.exp x).toNat = 0 ∧ p = canonicalZero) ∨
    (1 ≤ (F32.exp x).toNat ∧ (F32.exp x).toNat ≤ 253 ∧ Packed.sign p = F32.sign x
      ∧ (Packed.exp p).toNat = (F32.exp x).toNat + 2
      ∧ (Packed.man p).toNat = (F32.man x).toNat * 2 ^ 16) := by
  have hl := (F32.exp x).isLt
  have hl' := (F32.man x).isLt
  by_cases h0 : (F32.exp x).toNat = 0
  · rw [encodeF32_zero h0] at h
    cases h
    exact .inl ⟨h0, rfl⟩
  by_cases h2 : (F32.exp x).toNat = 255
  · rw [encodeF32_nonFinite h2] at h; cases h
  by_cases h3 : (F32.exp x).toNat = 254
  · rw [encodeF32_overflow h3] at h; cases h
  rw [encodeF32_normal (by omega) (by omega)] at h
  cases h
  have hp := pack_fields (F32.sign x) (e := (F32.exp x).toNat + 2) (m := (F32.man x).toNat * 2 ^ 16)
    (by omega) (by omega) (by omega)
  exact .inr ⟨by omega, by omega, hp.1, by omega, hp.2.2⟩

end Sys2Proof.Machine
end

