-- ==== Sys2Proof/Laws/Ieee.lean ====
section
/-! SUPPORT. The fields of a widened float (40_encoder.md R107). -/

namespace Sys2Proof.Machine

theorem widenNormal_fields {x : Binary32} (he : (F32.exp x).toNat ≤ 254) :
    F64.sign (widenNormal x) = F32.sign x
      ∧ (F64.exp (widenNormal x)).toNat = (F32.exp x).toNat + 896
      ∧ (F64.man (widenNormal x)).toNat = (F32.man x).toNat * 2 ^ 29 := by
  have := (F32.man x).isLt
  simp only [widenNormal, f64_exp_assemble, f64_man_assemble, f64_sign_assemble, Nat.shiftLeft_eq,
    BitVec.toNat_ofNat, BitVec.toNat_ofInt]
  exact ⟨trivial, by omega, by omega⟩

/-- The leading one of a float's mantissa that is not 0. -/
theorem f32_man_log2 {x : Binary32} (h : (F32.man x).toNat ≠ 0) :
    (F32.man x).toNat.log2 ≤ 22 ∧ 2 ^ (F32.man x).toNat.log2 ≤ (F32.man x).toNat
      ∧ (F32.man x).toNat < 2 ^ ((F32.man x).toNat.log2 + 1) := by
  refine ⟨?_, Nat.log2_self_le h, Nat.lt_log2_self⟩
  have := (Nat.log2_lt h).mpr (F32.man x).isLt
  omega

theorem widenSubnormal_fields {x : Binary32} (h : (F32.man x).toNat ≠ 0) :
    F64.sign (widenSubnormal x) = F32.sign x
      ∧ (F64.exp (widenSubnormal x)).toNat = (F32.man x).toNat.log2 + 874
      ∧ (F64.man (widenSubnormal x)).toNat
          = ((F32.man x).toNat - 2 ^ (F32.man x).toNat.log2) * 2 ^ (52 - (F32.man x).toNat.log2) := by
  obtain ⟨hk, -, hlt⟩ := f32_man_log2 h
  simp only [widenSubnormal, f64_exp_assemble, f64_man_assemble, f64_sign_assemble, Nat.shiftLeft_eq,
    BitVec.toNat_ofNat, BitVec.toNat_ofInt]
  refine ⟨trivial, by omega, Nat.mod_eq_of_lt ?_⟩
  generalize (F32.man x).toNat = f at *
  generalize f.log2 = k at *
  have hf : f - 2 ^ k < 2 ^ k := by rw [pow_succ] at hlt; omega
  calc (f - 2 ^ k) * 2 ^ (52 - k) < 2 ^ k * 2 ^ (52 - k) :=
        Nat.mul_lt_mul_of_pos_right hf (by positivity)
    _ = 2 ^ 52 := by rw [← pow_add]; congr 1; omega

end Sys2Proof.Machine
end

