-- ==== Sys2Proof/Laws/PerInstr.lean ====
section
/-! SUPPORT. Statements about every operation as syntax, one lemma per constructor. -/

namespace Sys2Proof.Laws.FitsOpcodeTable

/-- The row's `match` in `spec/opcode_table.json` (bits 65:64 of the request). -/
def tableMatch : Instr → Request
  | .encF64 _ => 0x00000000000000000#66
  | .encF32 _ => 0x10000000000000000#66
  | .decF64 _ => 0x20000000000000000#66
  | .decF32 _ => 0x30000000000000000#66

/-- The row's `mask` in `spec/opcode_table.json`, the same for every row. -/
def tableMask : Request := 0x30000000000000000#66

/-- The encoded operation fits its row of the table, and is well formed. -/
def Statement (i : Instr) : Prop :=
  encode i &&& tableMask = tableMatch i ∧ i.wellFormed = true

/-- Under the mask only the operation code is left. -/
theorem masked (op : BitVec 2) (v : BitVec 64) :
    requestOf op v &&& tableMask = requestOf op 0#64 := by
  apply BitVec.eq_of_toNat_eq
  rw [BitVec.toNat_and, requestOf_toNat, requestOf_toNat]
  have hm : tableMask.toNat = 2 ^ 66 - 2 ^ 64 := by decide
  apply Nat.eq_of_testBit_eq
  intro j
  have hop := op.isLt
  have hv := v.isLt
  have hmask : Nat.testBit tableMask.toNat j = (decide (64 ≤ j) && decide (j < 66)) := by
    rw [hm, show (2 ^ 66 - 2 ^ 64 : Nat) = 2 ^ 64 * (2 ^ 2 - 1) by norm_num, Nat.testBit_two_pow_mul,
      Nat.testBit_two_pow_sub_one]
    by_cases h : 64 ≤ j
    · simp [h]
      omega
    · simp [h]
  rw [Nat.testBit_and, hmask]
  rcases Nat.lt_or_ge j 64 with h | h
  · have h1 : (op.toNat * 2 ^ 64 + (0#64).toNat).testBit j = false := by
      rw [Nat.mul_comm, Nat.testBit_two_pow_mul_add _ (by decide)]
      simp [h]
    rw [h1]
    simp [Nat.not_le.mpr h]
  · have h1 : (op.toNat * 2 ^ 64 + v.toNat).testBit j = op.toNat.testBit (j - 64) := by
      rw [Nat.mul_comm, Nat.testBit_two_pow_mul_add _ hv]
      simp [Nat.not_lt.mpr h]
    have h2 : (op.toNat * 2 ^ 64 + (0#64).toNat).testBit j = op.toNat.testBit (j - 64) := by
      rw [Nat.mul_comm, Nat.testBit_two_pow_mul_add _ (by decide)]
      simp [Nat.not_lt.mpr h]
    rw [h1, h2]
    rcases Nat.lt_or_ge j 66 with h' | h'
    · simp [h, h']
    · have : op.toNat.testBit (j - 64) = false := by
        apply Nat.testBit_lt_two_pow
        calc op.toNat < 2 ^ 2 := hop
          _ ≤ 2 ^ (j - 64) := Nat.pow_le_pow_right (by norm_num) (by omega)
      simp [this]

theorem encF64 (d : Binary64) : Statement (.encF64 d) :=
  ⟨(masked 0b00#2 d).trans rfl, rfl⟩
theorem encF32 (x : Binary32) : Statement (.encF32 x) :=
  ⟨(masked 0b01#2 (x.setWidth 64)).trans rfl, rfl⟩
theorem decF64 (p : Packed) : Statement (.decF64 p) :=
  ⟨(masked 0b10#2 (p.setWidth 64)).trans rfl, rfl⟩
theorem decF32 (p : Packed) : Statement (.decF32 p) :=
  ⟨(masked 0b11#2 (p.setWidth 64)).trans rfl, rfl⟩

end Sys2Proof.Laws.FitsOpcodeTable
end

