-- ==== Sys2Proof/Laws/State.lean ====
section
/-! SUPPORT. One lemma per field per update of `State`. -/

namespace Sys2Proof.Machine

@[simp] theorem answerEnc_requests (s : State) (a : Response 48) :
    (s.answerEnc a).requests = s.requests := rfl
@[simp] theorem answerEnc_encResponses (s : State) (a : Response 48) :
    (s.answerEnc a).encResponses = s.encResponses ++ [a] := rfl
@[simp] theorem answerEnc_decResponses (s : State) (a : Response 48) :
    (s.answerEnc a).decResponses = s.decResponses := rfl
@[simp] theorem answerEnc_resetAsserted (s : State) (a : Response 48) :
    (s.answerEnc a).resetAsserted = s.resetAsserted := rfl

@[simp] theorem answerDec_requests (s : State) (a : DecResponse) :
    (s.answerDec a).requests = s.requests := rfl
@[simp] theorem answerDec_encResponses (s : State) (a : DecResponse) :
    (s.answerDec a).encResponses = s.encResponses := rfl
@[simp] theorem answerDec_decResponses (s : State) (a : DecResponse) :
    (s.answerDec a).decResponses = s.decResponses ++ [a] := rfl
@[simp] theorem answerDec_resetAsserted (s : State) (a : DecResponse) :
    (s.answerDec a).resetAsserted = s.resetAsserted := rfl

@[simp] theorem present_requests (s : State) (r : Request) :
    (s.present r).requests = s.requests ++ [r] := rfl
@[simp] theorem present_encResponses (s : State) (r : Request) :
    (s.present r).encResponses = s.encResponses := rfl
@[simp] theorem present_decResponses (s : State) (r : Request) :
    (s.present r).decResponses = s.decResponses := rfl
@[simp] theorem present_resetAsserted (s : State) (r : Request) :
    (s.present r).resetAsserted = s.resetAsserted := rfl

@[simp] theorem withFetchWord_requests (s : State) (n w : Nat) :
    (s.withFetchWord n w).requests = BitVec.ofNat 66 w :: s.requests := rfl
@[simp] theorem withFetchWord_encResponses (s : State) (n w : Nat) :
    (s.withFetchWord n w).encResponses = s.encResponses := rfl
@[simp] theorem withFetchWord_decResponses (s : State) (n w : Nat) :
    (s.withFetchWord n w).decResponses = s.decResponses := rfl
@[simp] theorem withFetchWord_resetAsserted (s : State) (n w : Nat) :
    (s.withFetchWord n w).resetAsserted = false := rfl

@[simp] theorem decResponse_result (p : Packed) (r : DecResult) : (decResponse p r).result = r := rfl
@[simp] theorem decResponse_sign (p : Packed) (r : DecResult) :
    (decResponse p r).sign = Packed.sign p := rfl
@[simp] theorem decResponse_exp (p : Packed) (r : DecResult) :
    (decResponse p r).exp = Packed.exp p := rfl
@[simp] theorem decResponse_man (p : Packed) (r : DecResult) :
    (decResponse p r).man = Packed.man p := rfl
@[simp] theorem decResponse_cls (p : Packed) (r : DecResult) :
    (decResponse p r).cls = classify p := rfl

end Sys2Proof.Machine
end

