-- ==== Sys2Proof/Laws/Step.lean ====
section
/-! SUPPORT. What one operation and one step can do, said once. -/

namespace Sys2Proof.Machine

/-- Every operation gives its unit's answer and changes nothing else. -/
theorem exec_eq (i : Instr) (s : State) :
    exec i s = .next { s with
      encResponses := s.encResponses ++ (encoderAnswer i).toList
      decResponses := s.decResponses ++ (decoderAnswer i).toList } := by
  cases i <;> simp [exec, execEncF64, execEncF32, execDecF64, execDecF32, State.answerEnc,
    State.answerDec, encoderAnswer, decoderAnswer]

/-- Where no request is taken the step changes nothing. -/
theorem step_of_none {s : State} (h : takeRequest s = none) : step s = .next s := by
  simp [step, h]

/-- Where a request is taken the step is the operation it decodes to. -/
theorem step_of_some {s s' : State} {r : Request} (h : takeRequest s = some (r, s')) :
    step s = exec (decode r) s' := by
  simp [step, h]

/-- Everything a step can do: nothing, or one operation answered. -/
theorem step_cases {s t : State} (h : step s = .next t) :
    (t = s ∧ takeRequest s = none) ∨
    ∃ r s', takeRequest s = some (r, s') ∧ t = { s' with
      encResponses := s'.encResponses ++ (encoderAnswer (decode r)).toList
      decResponses := s'.decResponses ++ (decoderAnswer (decode r)).toList } := by
  cases ht : takeRequest s with
  | none =>
    rw [step_of_none ht] at h
    cases h
    exact .inl ⟨rfl, rfl⟩
  | some q =>
    obtain ⟨r, s'⟩ := q
    rw [step_of_some ht, exec_eq] at h
    cases h
    exact .inr ⟨r, s', rfl, rfl⟩

end Sys2Proof.Machine
end

