-- ==== Sys2Proof/Laws/Value.lean ====
section
/-! SUPPORT. Magnitudes as multiples of a weight, and where they lie between powers of two (30_encoding.md
R61; 40_encoder.md R103). -/

namespace Sys2Proof.Machine

theorem abs_signFactor (s : BitVec 1) : |signFactor s| = 1 := by
  unfold signFactor; split <;> simp

/-- A magnitude is a whole multiple of the weight of its lowest place. -/
theorem magnitude_eq_mul (e : Int) (m w : Nat) :
    magnitude e m w = ((2 ^ w + m : Nat) : ℚ) * (2 : ℚ) ^ (e - w) := by
  unfold magnitude
  rw [zpow_sub₀ (by norm_num), zpow_natCast]
  push_cast
  field_simp

theorem magnitude_nonneg (e : Int) (m w : Nat) : 0 ≤ magnitude e m w := by
  unfold magnitude; positivity

theorem le_magnitude (e : Int) (m w : Nat) : (2 : ℚ) ^ e ≤ magnitude e m w := by
  unfold magnitude
  have h : (0 : ℚ) ≤ (m : ℚ) / 2 ^ w := by positivity
  nlinarith [zpow_pos (by norm_num : (0 : ℚ) < 2) e]

theorem magnitude_lt (e : Int) {m w : Nat} (h : m < 2 ^ w) :
    magnitude e m w < (2 : ℚ) ^ (e + 1) := by
  unfold magnitude
  rw [zpow_add₀ (by norm_num)]
  have h1 : (m : ℚ) / 2 ^ w < 1 := by rw [div_lt_one (by positivity)]; exact_mod_cast h
  have h2 := zpow_pos (by norm_num : (0 : ℚ) < 2) e
  norm_num
  nlinarith

theorem packedValue_normal {p : Packed} (h : Packed.exp p ≠ 0#8) :
    packedValue p = signFactor (Packed.sign p)
      * magnitude ((Packed.exp p).toNat - 129) (Packed.man p).toNat 39 := by
  unfold packedValue; rw [if_neg h]

theorem abs_packedValue {p : Packed} (h : Packed.exp p ≠ 0#8) :
    |packedValue p| = magnitude ((Packed.exp p).toNat - 129) (Packed.man p).toNat 39 := by
  rw [packedValue_normal h, abs_mul, abs_signFactor, one_mul, abs_of_nonneg (magnitude_nonneg _ _ _)]

theorem abs_normalValueF64 (d : Binary64) :
    |normalValueF64 d| = magnitude ((F64.exp d).toNat - 1023) (F64.man d).toNat 52 := by
  unfold normalValueF64
  rw [abs_mul, abs_signFactor, one_mul, abs_of_nonneg (magnitude_nonneg _ _ _)]

theorem abs_normalValueF32 (x : Binary32) :
    |normalValueF32 x| = magnitude ((F32.exp x).toNat - 127) (F32.man x).toNat 23 := by
  unfold normalValueF32
  rw [abs_mul, abs_signFactor, one_mul, abs_of_nonneg (magnitude_nonneg _ _ _)]

end Sys2Proof.Machine
end

