-- ==== Sys2Proof/Tests/Slice0.lean ====
section
/-! SUPPORT. The model's own tests. Every expected result is from spec/95_test_vectors.md or a worked example
of an operation rule, none from the model. A test performs one step from reset. -/

namespace Sys2Proof.Tests

open Sys2Proof.Machine

/-- The encoder's response to one request, by one step from reset. -/
def encStep (w : Nat) : Option (Response 48) :=
  match step (State.reset.withFetchWord 66 w) with
  | .next t => if t.decResponses = [] then t.encResponses.getLast? else none
  | _       => none

/-- The decoder's response to one request, by one step from reset. -/
def decStep (w : Nat) : Option DecResponse :=
  match step (State.reset.withFetchWord 66 w) with
  | .next t => if t.encResponses = [] then t.decResponses.getLast? else none
  | _       => none

/-! ## Well-formedness: what it refuses -/

/-- R76: the largest request word is well formed, the number one above it is not. -/
theorem test_wellFormed_refuses_overlong :
    requestWellFormed (2 ^ 66 - 1) = true ∧ requestWellFormed (2 ^ 66) = false := by decide

/-- The same through the decoder, which names its reason. -/
theorem test_decodeBits_refuses_overlong :
    decodeBits (2 ^ 66) = .error .notARequestWord ∧ decodeTableWord 72 (2 ^ 66) = none := by
  constructor <;> rfl

/-! ## Decoding: words written out from the encodings of 30_encoding.md R68, R69 -/

/-- `ENC_F64` of pi (P1 line a), bit by bit: op 00, sign 0, exponent 10000000000, mantissa. -/
theorem test_decode_encF64 :
    decode 0b000100000000001001001000011111101101010100010001000010110100011000#66
      = .encF64 0x400921FB54442D18#64 ∧
    decodeTableWord 66 0x0400921FB54442D18 = some (.encF64 0x400921FB54442D18#64) := by decide

/-- `ENC_F32` of 1.0f with the ignored upper 32 bits set (F20): op 01. -/
theorem test_decode_encF32 :
    decode 0b011101111010101101101111101110111100111111100000000000000000000000#66
      = .encF32 0x3F800000#32 ∧
    decodeTableWord 66 0x1DEADBEEF3F800000 = some (.encF32 0x3F800000#32) := by decide

/-- `DEC_F64` of 1.0 with the ignored upper 16 bits set (X30): op 10. -/
theorem test_decode_decF64 :
    decode 0b101010101111001101000000000000000000000000000000000000000010000001#66
      = .decF64 0x000000000081#48 ∧
    decodeTableWord 66 0x2ABCD000000000081 = some (.decF64 0x000000000081#48) := by decide

/-- `DEC_F32` of -2.5 (X13): op 11. -/
theorem test_decode_decF32 :
    decode 0b110000000000000000101000000000000000000000000000000000000010000010#66
      = .decF32 0xA00000000082#48 ∧
    decodeTableWord 66 0x30000A00000000082 = some (.decF32 0xA00000000082#48) := by decide

/-- The request words of 95_test_vectors.md P2 and P3 are what encoding gives. -/
theorem test_encode_words :
    encode (.encF32 0x3DCCCCCD#32) = 0x1000000003DCCCCCD#66 ∧
    encode (.decF32 0x4CCCCD00007D#48) = 0x300004CCCCD00007D#66 ∧
    encode (.decF64 0x4CCCCD00007D#48) = 0x200004CCCCD00007D#66 ∧
    encode (.encF64 0x3FFFFFFFFFFFEFFF#64) = 0x03FFFFFFFFFFFEFFF#66 := by decide

/-! ## The operations: the vectors of 95_test_vectors.md, each as a request word and its response -/

def vectorsEncF641 : List (Nat × Response 48) :=
  [ (0x03FF0000000000000, .ok 0x000000000081#48),
    (0x0BFF0000000000000, .ok 0x800000000081#48),
    (0x04000000000000000, .ok 0x000000000082#48),
    (0x03FE0000000000000, .ok 0x000000000080#48),
    (0x0C004000000000000, .ok 0xA00000000082#48),
    (0x0400921FB54442D18, .ok 0x490FDAA22182#48),
    (0x03FB999999999999A, .ok 0x4CCCCCCCCD7D#48),
    (0x03FD5555555555555, .ok 0x2AAAAAAAAB7F#48),
    (0x04059000000000000, .ok 0x480000000087#48),
    (0x0C0934A456D5CFAAD, .ok 0x9A522B6AE88B#48),
    (0x00000000000000000, .ok 0x000000000000#48),
    (0x08000000000000000, .ok 0x000000000000#48),
    (0x00000000000000001, .ok 0x000000000000#48),
    (0x0000FFFFFFFFFFFFF, .ok 0x000000000000#48),
    (0x08000000000000001, .ok 0x000000000000#48) ]

def vectorsEncF642 : List (Nat × Response 48) :=
  [ (0x00010000000000000, .error .underflow),
    (0x037E0000000000000, .error .underflow),
    (0x037EFFFFFFFFFFFFF, .error .underflow),
    (0x037F0000000000000, .ok 0x000000000001#48),
    (0x047D0000000000000, .ok 0x0000000000FF#48),
    (0x047DFFFFFFFFFF000, .error .overflow),
    (0x047DFFFFFFFFFEFFF, .ok 0x7FFFFFFFFFFF#48),
    (0x047E0000000000000, .error .overflow),
    (0x07FEFFFFFFFFFFFFF, .error .overflow),
    (0x07FF0000000000000, .error .unrepresentable),
    (0x0FFF0000000000000, .error .unrepresentable),
    (0x07FF8000000000000, .error .unrepresentable),
    (0x07FF0000000000001, .error .unrepresentable),
    (0x0FFF8000000000000, .error .unrepresentable),
    (0x03FF0000000000FFF, .ok 0x000000000081#48) ]

def vectorsEncF643 : List (Nat × Response 48) :=
  [ (0x03FF0000000001000, .ok 0x000000000181#48),
    (0x03FF0000000001001, .ok 0x000000000181#48),
    (0x03FF0000000002FFF, .ok 0x000000000181#48),
    (0x03FF0000000003000, .ok 0x000000000281#48),
    (0x03FFFFFFFFFFFF000, .ok 0x000000000082#48),
    (0x03FFFFFFFFFFFEFFF, .ok 0x7FFFFFFFFF81#48),
    (0x03FFFFFFFFFFFFFFF, .ok 0x000000000082#48),
    (0x0BE8FFFFFFFFFFFFF, .ok 0x80000000006B#48),
    (0x047CFFFFFFFFFFFFF, .ok 0x0000000000FF#48),
    (0x0B7FFFFFFFFFFFFFF, .ok 0x800000000002#48),
    (0x047D2CED32A16A1B1, .ok 0x16769950B5FF#48),
    (0x0380B38FB9DAA78E4, .ok 0x59C7DCED5402#48),
    (0x037D5C72FB1552D83, .error .underflow) ]

/-- 95_test_vectors.md section 2, E1 to E43. -/
def vectorsEncF64 : List (Nat × Response 48) :=
  vectorsEncF641 ++ vectorsEncF642 ++ vectorsEncF643

def vectorsEncF321 : List (Nat × Response 48) :=
  [ (0x1000000003F800000, .ok 0x000000000081#48),
    (0x100000000BF800000, .ok 0x800000000081#48),
    (0x1000000003DCCCCCD, .ok 0x4CCCCD00007D#48),
    (0x10000000040490FDB, .ok 0x490FDB000082#48),
    (0x100000000C0200000, .ok 0xA00000000082#48),
    (0x100000000477FE000, .ok 0x7FE000000090#48),
    (0x10000000000000000, .ok 0x000000000000#48),
    (0x10000000080000000, .ok 0x000000000000#48),
    (0x10000000000000001, .ok 0x000000000000#48),
    (0x100000000007FFFFF, .ok 0x000000000000#48),
    (0x10000000080000001, .ok 0x000000000000#48),
    (0x10000000000800000, .ok 0x000000000003#48),
    (0x10000000000FFFFFF, .ok 0x7FFFFF000003#48),
    (0x1000000003F000001, .ok 0x000001000080#48),
    (0x1000000007E800000, .ok 0x0000000000FF#48) ]

def vectorsEncF322 : List (Nat × Response 48) :=
  [ (0x1000000007EFFFFFF, .ok 0x7FFFFF0000FF#48),
    (0x1000000007F000000, .error .overflow),
    (0x1000000007F7FFFFF, .error .overflow),
    (0x100000000FF000000, .error .overflow),
    (0x1DEADBEEF3F800000, .ok 0x000000000081#48),
    (0x1000000007F800000, .error .unrepresentable),
    (0x100000000FF800000, .error .unrepresentable),
    (0x1000000007FC00000, .error .unrepresentable),
    (0x1000000007F800001, .error .unrepresentable) ]

/-- 95_test_vectors.md section 3, F1 to F24. -/
def vectorsEncF32 : List (Nat × Response 48) :=
  vectorsEncF321 ++ vectorsEncF322

def vectorsDec1 : List (Nat × Response 64 × Response 32 × PackedClass) :=
  [ (0x0000000000000000, .ok 0x0000000000000000#64, .ok 0x00000000#32, .zero),
    (0x0000800000000000, .ok 0x0000000000000000#64, .ok 0x00000000#32, .zero),
    (0x00007FFFFFFFFF00, .ok 0x0000000000000000#64, .ok 0x00000000#32, .zero),
    (0x0000FFFFFFFFFF00, .ok 0x0000000000000000#64, .ok 0x00000000#32, .zero),
    (0x0000000000000001, .ok 0x37F0000000000000#64, .error .underflow, .normal),
    (0x0000000000000002, .ok 0x3800000000000000#64, .error .underflow, .normal),
    (0x00007FFFFFFFFF02, .ok 0x380FFFFFFFFFE000#64, .error .underflow, .normal),
    (0x0000000000000003, .ok 0x3810000000000000#64, .ok 0x00800000#32, .normal),
    (0x0000800000000003, .ok 0xB810000000000000#64, .ok 0x80800000#32, .normal),
    (0x000000000000005A, .ok 0x3D80000000000000#64, .ok 0x2C000000#32, .normal),
    (0x0000000000000081, .ok 0x3FF0000000000000#64, .ok 0x3F800000#32, .normal),
    (0x0000800000000081, .ok 0xBFF0000000000000#64, .ok 0xBF800000#32, .normal),
    (0x0000A00000000082, .ok 0xC004000000000000#64, .ok 0xC0200000#32, .normal),
    (0x00000000007FFF81, .ok 0x3FF000000FFFE000#64, .ok 0x3F800000#32, .normal),
    (0x0000000000800081, .ok 0x3FF0000010000000#64, .ok 0x3F800001#32, .normal) ]

def vectorsDec2 : List (Nat × Response 64 × Response 32 × PackedClass) :=
  [ (0x0000000000800181, .ok 0x3FF0000010002000#64, .ok 0x3F800001#32, .normal),
    (0x00000000017FFF81, .ok 0x3FF000002FFFE000#64, .ok 0x3F800001#32, .normal),
    (0x0000000001800081, .ok 0x3FF0000030000000#64, .ok 0x3F800002#32, .normal),
    (0x00007FFFFF800081, .ok 0x3FFFFFFFF0000000#64, .ok 0x40000000#32, .normal),
    (0x00007FFFFF7FFF81, .ok 0x3FFFFFFFEFFFE000#64, .ok 0x3FFFFFFF#32, .normal),
    (0x00007FFFFFFFFF81, .ok 0x3FFFFFFFFFFFE000#64, .ok 0x40000000#32, .normal),
    (0x00000000000000FF, .ok 0x47D0000000000000#64, .ok 0x7E800000#32, .normal),
    (0x00007FFFFF7FFFFF, .ok 0x47DFFFFFEFFFE000#64, .ok 0x7EFFFFFF#32, .normal),
    (0x00007FFFFFFFFFFF, .ok 0x47DFFFFFFFFFE000#64, .ok 0x7F000000#32, .normal),
    (0x0000FFFFFFFFFFFF, .ok 0xC7DFFFFFFFFFE000#64, .ok 0xFF000000#32, .normal),
    (0x0000FFFFFFFFFFFE, .ok 0xC7CFFFFFFFFFE000#64, .ok 0xFE800000#32, .normal),
    (0x0000490FDAA22182, .ok 0x400921FB54442000#64, .ok 0x40490FDB#32, .normal),
    (0x00004CCCCCCCCD7D, .ok 0x3FB999999999A000#64, .ok 0x3DCCCCCD#32, .normal),
    (0x00004CCCCD00007D, .ok 0x3FB99999A0000000#64, .ok 0x3DCCCCCD#32, .normal),
    (0xABCD000000000081, .ok 0x3FF0000000000000#64, .ok 0x3F800000#32, .normal) ]

/-- 95_test_vectors.md section 4, X1 to X30: operand, `DEC_F64`, `DEC_F32`, class. -/
def vectorsDec : List (Nat × Response 64 × Response 32 × PackedClass) :=
  vectorsDec1 ++ vectorsDec2

theorem test_encF64_vectors :
    vectorsEncF64.all (fun v => decide (encStep v.1 = some v.2)) = true := by decide

theorem test_encF32_vectors :
    vectorsEncF32.all (fun v => decide (encStep v.1 = some v.2)) = true := by decide

theorem test_decF64_vectors :
    vectorsDec.all (fun v =>
      decide ((decStep (0x20000000000000000 + v.1)).map (fun a => (a.result, a.cls))
        = some (.f64 v.2.1, v.2.2.2))) = true := by decide

theorem test_decF32_vectors :
    vectorsDec.all (fun v =>
      decide ((decStep (0x30000000000000000 + v.1)).map (fun a => (a.result, a.cls))
        = some (.f32 v.2.2.1, v.2.2.2))) = true := by decide

/-- R130: the raw fields beside a failed `DEC_F32` (X7: `pe` 2, `pm` all ones, sign 0), and beside the result
of a non-canonical zero (X4), not forced to zero. -/
theorem test_decoder_side_outputs :
    (decStep 0x300007FFFFFFFFF02).map (fun a => (a.sign, a.exp, a.man))
      = some (0#1, 2#8, 0x7FFFFFFFFF#39) ∧
    (decStep 0x20000FFFFFFFFFF00).map (fun a => (a.sign, a.exp, a.man))
      = some (1#1, 0#8, 0x7FFFFFFFFF#39) := by decide

/-! ## Formats, parameters, notation -/

/-- 00_scope.md R7: the identities between the parameters. -/
theorem test_parameter_identities :
    F64_BIAS - PBIAS = REBIAS64 ∧ PBIAS - F32_BIAS = REBIAS32 ∧ F64_MAN_W - PMAN_W = SHIFT64 ∧
    PMAN_W - F32_MAN_W = SHIFT32 ∧ 2 * ROUND64 = 2 ^ SHIFT64 ∧ 2 * ROUND32 = 2 ^ SHIFT32 ∧
    PSIGN_W + PEXP_W + PMAN_W = PW ∧ PW = PBYTES * 8 := by decide

/-- The bytes of pi and of -1234.5678 (E6, E10). -/
theorem test_bytes :
    (bytesOf 0x490FDAA22182#48).toList = [0x82#8, 0x21#8, 0xA2#8, 0xDA#8, 0x0F#8, 0x49#8] ∧
    wordOf ⟨0x8B#8, 0xE8#8, 0x6A#8, 0x2B#8, 0x52#8, 0x9A#8⟩ = 0x9A522B6AE88B#48 := by decide

/-- 40_encoder.md R107 (L7, L8): widening 0.1f, and the subnormal 2^-127. -/
theorem test_widen :
    widenNormal 0x3DCCCCCD#32 = 0x3FB99999A0000000#64 ∧
    widenSubnormal 0x00400000#32 = 0x3800000000000000#64 := by decide

/-- 41_decoder.md R139: half up against nearest even on the tie of X15. -/
theorem test_narrowings_differ_on_even_tie :
    narrowHalfUp 0x3FF0000010000000#64 = 0x3F800001#32 ∧
    narrowNearestEven 0x3FF0000010000000#64 = 0x3F800000#32 := by decide

/-- P4: a failure is propagated and the operation not performed. -/
theorem test_notation_propagates :
    (Rhs.op .DEC_F64 (.name "a")).eval [("a", .failure .unrepresentable)]
      = some (.failure .unrepresentable) := by decide

/-- P5: the pseudo-operations on the negated zero. -/
theorem test_notation_negated_zero :
    (Rhs.WORD (.literal (.bytes ⟨0x00#8, 0x00#8, 0x00#8, 0x00#8, 0x00#8, 0x80#8⟩))).eval []
      = some (.packed 0x800000000000#48) ∧
    (Rhs.CLASSIFY (.name "w")).eval [("w", .packed 0x800000000000#48)] = some (.cls .zero) ∧
    (Rhs.NEG (.literal (.packed 0x000000000000#48))).eval [] = some (.packed 0x800000000000#48) := by
  decide

/-- R77: an operand of the wrong width, and a name no earlier line has bound, are ill formed. -/
theorem test_notation_refuses_ill_formed :
    (Rhs.op .ENC_F32 (.literal (.double 0x3FF0000000000000#64))).eval [] = none ∧
    (Rhs.op .DEC_F64 (.name "w")).eval [] = none := by decide

/-! ## Witnesses: for each statement with hypotheses, states and operands that meet them, each clause at the
ends of its range -/

/-- A machine with the responses of both units standing and two requests waiting. -/
def busy : State where
  requests := [0x0400921FB54442D18#66, 0x30000000000000001#66]
  encResponses := [.ok 0x000000000081#48]
  decResponses := [decResponse 0x000000000081#48 (.f64 (.ok 0x3FF0000000000000#64))]
  resetAsserted := false

theorem witness_StepPerformsDecodedRequest : busy.resetAsserted = false ∧
    busy.requests = 0x0400921FB54442D18#66 :: [0x30000000000000001#66] := by decide

theorem witness_StepWithoutRequestChangesNothing :
    ({ busy with requests := [] } : State).requests = [] := by decide

theorem witness_ResetInputHoldsRequestsOff :
    ({ busy with resetAsserted := true } : State).resetAsserted = true ∧
    busy.requests = 0x0400921FB54442D18#66 :: [0x30000000000000001#66] := by decide

theorem witness_EveryRequestGetsOneResponse : busy.resetAsserted = false ∧
    busy.requests = 0x0400921FB54442D18#66 :: [0x30000000000000001#66] := by decide

theorem witness_OperationsChangeOnlyTheirUnitsResponses :
    (∃ t, exec (.encF64 0x400921FB54442D18#64) busy = .next t) ∧
    (∃ t, exec (.encF32 0x7F800001#32) busy = .next t) ∧
    (∃ t, exec (.decF64 0x800000000000#48) busy = .next t) ∧
    (∃ t, exec (.decF32 0x000000000001#48) busy = .next t) :=
  ⟨⟨_, rfl⟩, ⟨_, rfl⟩, ⟨_, rfl⟩, ⟨_, rfl⟩⟩

theorem witness_ResponseDependsOnRequestAlone :
    ∃ t₁ t₂, busy.resetAsserted = false ∧ (State.reset.withFetchWord 66 0x0400921FB54442D18).resetAsserted = false
      ∧ busy.requests = 0x0400921FB54442D18#66 :: [0x30000000000000001#66]
      ∧ (State.reset.withFetchWord 66 0x0400921FB54442D18).requests = 0x0400921FB54442D18#66 :: []
      ∧ step busy = .next t₁ ∧ step (State.reset.withFetchWord 66 0x0400921FB54442D18) = .next t₂ :=
  ⟨_, _, rfl, rfl, rfl, rfl, rfl, rfl⟩

theorem witness_RunAnswersRequestsInOrder :
    busy.resetAsserted = false ∧ 2 ≤ busy.requests.length ∧ 0 ≤ busy.requests.length := by decide

theorem witness_OrderOfRequestsDoesNotMatter :
    busy.resetAsserted = false ∧
    busy.requests.Perm [0x30000000000000001#66, 0x0400921FB54442D18#66] ∧
    (∃ t, Host.Core.run Sys2Proof.core 2 busy = .next t) ∧
    ∃ t, Host.Core.run Sys2Proof.core 2
      { busy with requests := [0x30000000000000001#66, 0x0400921FB54442D18#66] } = .next t :=
  ⟨rfl, List.Perm.swap _ _ _, ⟨_, rfl⟩, ⟨_, rfl⟩⟩

theorem witness_UnitsAreIndependent : busy.resetAsserted = false ∧
    (opOf 0x0400921FB54442D18#66).getLsbD 1 ≠ (opOf 0x30000000000000001#66).getLsbD 1 := by decide

theorem witness_RepeatedRequestRepeatsResponse : busy.resetAsserted = false := by decide

theorem witness_StepKeepsResponsesSound : busy.Sound ∧ ∃ t, step busy = .next t := by
  refine ⟨⟨?_, ?_⟩, _, rfl⟩
  · intro a ha
    simp only [busy, List.mem_singleton] at ha
    subst ha
    exact .inr (by decide)
  · intro a ha
    simp only [busy, List.mem_singleton] at ha
    subst ha
    refine ⟨by decide, ?_⟩
    show if Packed.exp 0x000000000081#48 = 0#8 then _ else _
    rw [if_neg (by decide)]
    decide

theorem witness_DecodeInvertsEncode :
    (Instr.decF32 0xFFFFFFFFFFFF#48).wellFormed = true := by decide

theorem witness_IgnoredBitsNeverChangeTheResponse :
    (0xDEADBEEF3F800000#64).extractLsb' 0 32 = (0x000000003F800000#64).extractLsb' 0 32 ∧
    (0xABCD000000000081#64).extractLsb' 0 48 = (0x0000000000000081#64).extractLsb' 0 48 ∧
    0xDEADBEEF3F800000#64 ≠ 0x000000003F800000#64 := by decide

/-- R105: both ends of every row of the table, with the carry and the mantissa just below it. -/
theorem witness_EncF64AnswersByExponent :
    (F64.exp 0x800FFFFFFFFFFFFF#64).toNat = 0 ∧
    (F64.exp 0x0010000000000000#64).toNat = 1 ∧ (F64.exp 0x37EFFFFFFFFFFFFF#64).toNat = 894 ∧
    ((F64.exp 0x37F0000000000000#64).toNat = 895 ∧
      ((F64.man 0x37F0000000000000#64).toNat + 2 ^ 12) / 2 ^ 13 < 2 ^ 39) ∧
    ((F64.exp 0x47DFFFFFFFFFEFFF#64).toNat = 1149 ∧
      ((F64.man 0x47DFFFFFFFFFEFFF#64).toNat + 2 ^ 12) / 2 ^ 13 < 2 ^ 39) ∧
    ((F64.exp 0xB7FFFFFFFFFFFFFF#64).toNat = 895 ∧
      ((F64.man 0xB7FFFFFFFFFFFFFF#64).toNat + 2 ^ 12) / 2 ^ 13 = 2 ^ 39) ∧
    ((F64.exp 0x47CFFFFFFFFFFFFF#64).toNat = 1148 ∧
      ((F64.man 0x47CFFFFFFFFFFFFF#64).toNat + 2 ^ 12) / 2 ^ 13 = 2 ^ 39) ∧
    ((F64.exp 0x47DFFFFFFFFFF000#64).toNat = 1149 ∧
      2 ^ 52 - 2 ^ 12 ≤ (F64.man 0x47DFFFFFFFFFF000#64).toNat) ∧
    (F64.exp 0x47E0000000000000#64).toNat = 1150 ∧ (F64.exp 0x7FEFFFFFFFFFFFFF#64).toNat = 2046 ∧
    (F64.exp 0x7FF0000000000000#64).toNat = 2047 := by decide

theorem witness_EncF32AnswersByExponent :
    (F32.exp 0x007FFFFF#32).toNat = 0 ∧ (F32.exp 0x00800000#32).toNat = 1 ∧
    (F32.exp 0x7EFFFFFF#32).toNat = 253 ∧ (F32.exp 0x7F7FFFFF#32).toNat = 254 ∧
    (F32.exp 0x7F800000#32).toNat = 255 := by decide

theorem witness_EncoderProducesOnlyCanonicalWords :
    encodeF64 0x8000000000000001#64 = .ok 0x000000000000#48 ∧
    encodeF32 0x00800000#32 = .ok 0x000000000003#48 := by decide

theorem witness_EncoderCopiesTheSign :
    (encodeF64 0x8000000000000000#64 = .ok 0#48) ∧
    (encodeF64 0xC00921FB54442D18#64 = .ok 0xC90FDAA22182#48 ∧ 0xC90FDAA22182#48 ≠ 0#48) ∧
    (encodeF32 0x80000000#32 = .ok 0#48) ∧
    (encodeF32 0xBF800000#32 = .ok 0x800000000081#48 ∧ 0x800000000081#48 ≠ 0#48) := by decide

theorem witness_EncodersAgreeExceptOnSubnormals :
    ((F32.exp 0x00800000#32).toNat = 1 ∧ (F32.exp 0x7F7FFFFF#32).toNat = 254) ∧
    ((F32.exp 0xFFC00000#32).toNat = 255 ∧ (F64.exp 0xFFF8000000000000#64).toNat = 2047) ∧
    ((F32.exp 0x80000000#32).toNat = 0 ∧ (F32.man 0x80000000#32).toNat = 0 ∧
      (F64.exp 0x8000000000000000#64).toNat = 0 ∧ (F64.man 0x8000000000000000#64).toNat = 0) ∧
    ((F32.exp 0x00000001#32).toNat = 0 ∧ (F32.man 0x00000001#32).toNat ≠ 0 ∧
      (F64.exp (widenSubnormal 0x00000001#32)).toNat ≤ 894 ∧
      (F32.exp 0x007FFFFF#32).toNat = 0 ∧ (F32.man 0x007FFFFF#32).toNat ≠ 0 ∧
      895 ≤ (F64.exp (widenSubnormal 0x007FFFFF#32)).toNat) := by decide

theorem witness_BoundaryRoundingCarries :
    (F64.man 0x3FFFFFFFFFFFF000#64).toNat / 2 ^ 13 = 2 ^ 39 - 1 ∧
    2 ^ 12 ≤ (F64.man 0x3FFFFFFFFFFFF000#64).toNat % 2 ^ 13 ∧
    ((F64.exp 0xB7FFFFFFFFFFF000#64).toNat = 895 ∧ (F64.exp 0x47CFFFFFFFFFF000#64).toNat = 1148) ∧
    (F64.man 0x47DFFFFFFFFFFFFF#64).toNat / 2 ^ 13 = 2 ^ 39 - 1 ∧
    2 ^ 12 ≤ (F64.man 0x47DFFFFFFFFFFFFF#64).toNat % 2 ^ 13 ∧
    (F64.exp 0x47DFFFFFFFFFFFFF#64).toNat = 1149 := by decide

theorem witness_NonFiniteInputIsUnrepresentable :
    (F64.exp 0xFFF0000000000001#64).toNat = 2047 ∧ (F32.exp 0xFF800000#32).toNat = 255 := by decide

theorem witness_DecF64AnswersEveryWord :
    Packed.exp 0xFFFFFFFFFF00#48 = 0#8 ∧ Packed.exp 0x000000000001#48 ≠ 0#8 ∧
    Packed.exp 0xFFFFFFFFFFFF#48 ≠ 0#8 := by decide

theorem witness_DecF32AnswersByExponent :
    Packed.exp 0x800000000000#48 = 0#8 ∧ Packed.exp 0x000000000001#48 = 1#8 ∧
    Packed.exp 0x7FFFFFFFFF02#48 = 2#8 ∧
    (3 ≤ (Packed.exp 0x000000000003#48).toNat ∧
      ((Packed.man 0x000000000003#48).toNat + 2 ^ 15) / 2 ^ 16 < 2 ^ 23) ∧
    (3 ≤ (Packed.exp 0x7FFFFF7FFFFF#48).toNat ∧
      ((Packed.man 0x7FFFFF7FFFFF#48).toNat + 2 ^ 15) / 2 ^ 16 < 2 ^ 23) ∧
    (3 ≤ (Packed.exp 0x7FFFFF800003#48).toNat ∧
      ((Packed.man 0x7FFFFF800003#48).toNat + 2 ^ 15) / 2 ^ 16 = 2 ^ 23) ∧
    (3 ≤ (Packed.exp 0xFFFFFFFFFFFF#48).toNat ∧
      ((Packed.man 0xFFFFFFFFFFFF#48).toNat + 2 ^ 15) / 2 ^ 16 = 2 ^ 23) := by decide

theorem witness_DecoderGivesFieldsAndClass :
    (Instr.decF64 0xFFFFFFFFFF00#48 = .decF64 0xFFFFFFFFFF00#48 ∨
      Instr.decF64 0xFFFFFFFFFF00#48 = .decF32 0xFFFFFFFFFF00#48) ∧
    (Instr.decF32 0x000000000001#48 = .decF64 0x000000000001#48 ∨
      Instr.decF32 0x000000000001#48 = .decF32 0x000000000001#48) := by decide

theorem witness_DecoderResultsAreZeroOrNormal :
    decodeF32 0x800000000000#48 = .ok 0x00000000#32 ∧
    decodeF32 0xFFFFFFFFFFFF#48 = .ok 0xFF000000#32 := by decide

theorem witness_DecodersAgreeUpToHalfUpNarrowing :
    3 ≤ (Packed.exp 0x000000000003#48).toNat ∧ 3 ≤ (Packed.exp 0x0000008000FF#48).toNat ∧
    (Packed.man 0x0000008000FF#48).toNat % 2 ^ 16 = 0x8000 ∧
    (Packed.man 0x0000008000FF#48).toNat / 2 ^ 16 % 2 = 0 := by decide

theorem witness_NegationIsSeenAsNegation :
    Packed.exp 0x000000000000#48 = 0#8 ∧ Packed.exp 0x000000000001#48 ≠ 0#8 := by decide

/-- P1 line a; P4 lines a, d, c. -/
theorem witness_WiresCarryStatusAndValue :
    respond 0x0400921FB54442D18#66 = .ok 0x0000490FDAA22182#64 ∧
    respond 0x07FF0000000000000#66 = .error .unrepresentable ∧
    respond 0x037E0000000000000#66 = .error .underflow ∧
    respond 0x047E0000000000000#66 = .error .overflow := by decide

/-- P1 lines a, b; P2 lines a, b. -/
theorem witness_ResultIsPlacedWithZeroFill :
    respond (encode (.encF64 0x400921FB54442D18#64)) = .ok 0x0000490FDAA22182#64 ∧
    respond (encode (.encF32 0x3DCCCCCD#32)) = .ok 0x00004CCCCD00007D#64 ∧
    respond (encode (.decF64 0x490FDAA22182#48)) = .ok 0x400921FB54442000#64 ∧
    respond (encode (.decF32 0x4CCCCD00007D#48)) = .ok 0x000000003DCCCCCD#64 := by decide

/-- P1, P2 and F20 as the pins see them: format 0 and 1 of each unit. -/
theorem witness_PinsCarryTheResponse :
    respond (requestOf (0#1 ++ 0#1) 0x400921FB54442D18#64) = .ok 0x0000490FDAA22182#64 ∧
    respond (requestOf (0#1 ++ 1#1) 0xDEADBEEF3F800000#64) = .ok 0x0000000000000081#64 ∧
    respond (requestOf (1#1 ++ 0#1) 0xABCD000000000081#64) = .ok 0x3FF0000000000000#64 ∧
    respond (requestOf (1#1 ++ 1#1) 0x00004CCCCD00007D#64) = .ok 0x000000003DCCCCCD#64 := by decide

theorem witness_NotationPropagatesFailures :
    (Operand.name "a").eval [("a", .failure .overflow)] = some (.failure .overflow) := by decide

theorem witness_PackedArraysHaveStrideSix :
    [0x000000000081#48, 0xA00000000082#48][1]? = some 0xA00000000082#48 ∧
    (packedArray [0x000000000081#48, 0xA00000000082#48])[6 * 1 + 5]? = some 0xA0#8 := by decide

theorem witness_FloatRoundTripIsExact :
    (F32.exp 0x00800000#32).toNat = 1 ∧ (F32.exp 0x7EFFFFFF#32).toNat = 253 ∧
    (F32.exp 0x80000000#32).toNat = 0 ∧ (F32.exp 0x7F000000#32).toNat = 254 ∧
    (F32.exp 0x7FC00000#32).toNat = 255 := by decide

theorem witness_DoubleRoundTripIsStable :
    encodeF64 0x0000000000000000#64 = .ok 0x000000000000#48 ∧
    encodeF64 0x3FB999999999999A#64 = .ok 0x4CCCCCCCCD7D#48 ∧
    encodeF64 0x3FB999999999A000#64 = .ok 0x4CCCCCCCCD7D#48 := by decide

theorem witness_DecodeThenEncodeCanonicalises :
    Packed.exp 0x7FFFFFFFFF01#48 = 1#8 ∧ Packed.exp 0x000000000002#48 = 2#8 := by decide

theorem witness_DecodingToDoubleIsExact :
    Packed.exp 0x000000000001#48 ≠ 0#8 ∧ Packed.exp 0xFFFFFFFFFFFF#48 ≠ 0#8 := by decide

theorem witness_EncodingAFloatIsExact :
    (F32.exp 0x7EFFFFFF#32).toNat ≠ 0 ∧ encodeF32 0x7EFFFFFF#32 = .ok 0x7FFFFF0000FF#48 := by decide

/-- A tie (E31), a carry (E35) and the top of the range (E22). -/
theorem witness_EncF64RoundsToNearestTiesAway :
    ((F64.exp 0x3FF0000000001000#64).toNat ≠ 0 ∧
      encodeF64 0x3FF0000000001000#64 = .ok 0x000000000181#48) ∧
    ((F64.exp 0x3FFFFFFFFFFFF000#64).toNat ≠ 0 ∧
      encodeF64 0x3FFFFFFFFFFFF000#64 = .ok 0x000000000082#48) ∧
    ((F64.exp 0x47DFFFFFFFFFEFFF#64).toNat ≠ 0 ∧
      encodeF64 0x47DFFFFFFFFFEFFF#64 = .ok 0x7FFFFFFFFFFF#48) := by decide

theorem witness_DecF32RoundsToNearestTiesAway :
    3 ≤ (Packed.exp 0x000000000003#48).toNat ∧ 3 ≤ (Packed.exp 0x7FFFFFFFFFFF#48).toNat := by decide

theorem witness_AcceptedRangesOfMagnitude :
    ((F64.exp 0x0010000000000000#64).toNat = 1 ∧ (F64.exp 0x7FEFFFFFFFFFFFFF#64).toNat = 2046) ∧
    ((F32.exp 0x00800000#32).toNat = 1 ∧ (F32.exp 0x7F7FFFFF#32).toNat = 254) := by decide

end Sys2Proof.Tests
end

/-! PROOFS. A run request by request, which unit a request leaves without an answer, and O11. -/

namespace Sys2Proof.Machine

/-- A step of a machine out of reset takes the oldest request and adds its unit's answer. -/
theorem step_requests_cons (r : Request) (rest : List Request) (es : List (Response 48))
    (ds : List DecResponse) :
    step ⟨r :: rest, es, ds, false⟩ = .next
      ⟨rest, es ++ (encoderAnswer (decode r)).toList, ds ++ (decoderAnswer (decode r)).toList, false⟩ := by
  have ht : takeRequest ⟨r :: rest, es, ds, false⟩ = some (r, ⟨rest, es, ds, false⟩) := by
    simp [takeRequest_some_iff]
  rw [step_of_some ht, exec_eq]

/-- A run peels off its first step. -/
theorem run_succ_of_step {s t : State} (k : Nat) (h : step s = .next t) :
    Host.Core.run Sys2Proof.core (k + 1) s = Host.Core.run Sys2Proof.core k t := by
  have hc : Sys2Proof.core.step s = .next t := h
  simp only [Host.Core.run, hc]

/-- A machine out of reset that runs answers its oldest request first. -/
theorem run_succ_requests_cons (k : Nat) (r : Request) (rest : List Request) (es : List (Response 48))
    (ds : List DecResponse) :
    Host.Core.run Sys2Proof.core (k + 1) ⟨r :: rest, es, ds, false⟩ = Host.Core.run Sys2Proof.core k
      ⟨rest, es ++ (encoderAnswer (decode r)).toList, ds ++ (decoderAnswer (decode r)).toList, false⟩ :=
  run_succ_of_step k (step_requests_cons r rest es ds)

/-- The encoder does not answer a request whose `op[1]` is 1 (R68). -/
theorem encoderAnswer_decode_eq_none {r : Request} (h : (opOf r).getLsbD 1 = true) :
    encoderAnswer (decode r) = none := by
  cases h0 : (opOf r).getLsbD 0 <;> simp only [decode, h, h0, encoderAnswer]

/-- The decoder does not answer a request whose `op[1]` is 0 (R68). -/
theorem decoderAnswer_decode_eq_none {r : Request} (h : (opOf r).getLsbD 1 = false) :
    decoderAnswer (decode r) = none := by
  cases h0 : (opOf r).getLsbD 0 <;> simp only [decode, h, h0, decoderAnswer]

/-- A decoder request waiting ahead of an encoder request may change places with it: each unit's list
grows by the one answer of its own request, whichever is performed first. -/
theorem run_two_swap_units {r q : Request} (hr : (opOf r).getLsbD 1 = true)
    (hq : (opOf q).getLsbD 1 = false) (rest : List Request) (es : List (Response 48))
    (ds : List DecResponse) :
    Host.Core.run Sys2Proof.core 2 ⟨r :: q :: rest, es, ds, false⟩
      = Host.Core.run Sys2Proof.core 2 ⟨q :: r :: rest, es, ds, false⟩ := by
  simp only [run_succ_requests_cons, encoderAnswer_decode_eq_none hr, decoderAnswer_decode_eq_none hq,
    Option.toList_none, List.append_nil]

/-- Settles O11: which of the two requests is the decoder's decides which way round
`run_two_swap_units` is used. -/
theorem unitsAreIndependent : Obligations.UnitsAreIndependent := by
  unfold Obligations.UnitsAreIndependent
  intro s r q rest hs hne
  obtain ⟨rs, es, ds, b⟩ := s
  obtain rfl : b = false := hs
  cases hr : (opOf r).getLsbD 1 with
  | true =>
    have hq : (opOf q).getLsbD 1 = false := Bool.eq_false_iff.mpr (hr ▸ hne.symm)
    exact run_two_swap_units hr hq rest es ds
  | false =>
    have hq : (opOf q).getLsbD 1 = true := Bool.ne_false_iff.mp (hr ▸ hne.symm)
    exact (run_two_swap_units hq hr rest es ds).symm

end Sys2Proof.Machine

/-! PROOFS. One step as the decoded operation, its frame, and what a run that performs the oldest requests
leaves: O1, O2, O7, O8 and O10. -/

namespace Sys2Proof.Machine

/-- Settles O1: the three lists of `State.reset` are empty and its reset input is released, by definition. -/
theorem resetLeavesNoTraffic : Obligations.ResetLeavesNoTraffic := by
  unfold Obligations.ResetLeavesNoTraffic
  exact ⟨rfl, rfl, rfl, rfl⟩

/-- Settles O2: a machine out of reset takes its oldest request, and the step is what that decodes to. -/
theorem stepPerformsDecodedRequest : Obligations.StepPerformsDecodedRequest := by
  unfold Obligations.StepPerformsDecodedRequest
  intro s r rest hs hr
  have ht : takeRequest s = some (r, { s with requests := rest }) :=
    (takeRequest_some_iff _ _ _).mpr ⟨hs, hr, rfl, rfl, hs⟩
  exact step_of_some ht

/-- Settles O7: by `exec_eq` only the two lists of responses can grow, and the operation's unit says which
of the two does. -/
theorem operationsChangeOnlyTheirUnitsResponses :
    Obligations.OperationsChangeOnlyTheirUnitsResponses := by
  unfold Obligations.OperationsChangeOnlyTheirUnitsResponses
  intro i s t h
  rw [exec_eq] at h
  cases h
  refine ⟨rfl, rfl, ?_⟩
  cases i with
  | encF64 _ | encF32 _ | decF64 _ | decF32 _ => exact ⟨List.append_nil _, _, rfl⟩

/-- Exactly one of the two units answers an operation. -/
theorem answers_length (i : Instr) :
    (encoderAnswer i).toList.length + (decoderAnswer i).toList.length = 1 := by
  cases i <;> rfl

/-- Where a step takes a request, both lists of responses grow by what the units answer to that request. -/
theorem step_responses {s t : State} {r : Request} {rest : List Request} (hs : s.resetAsserted = false)
    (hr : s.requests = r :: rest) (h : step s = .next t) :
    t.encResponses = s.encResponses ++ (encoderAnswer (decode r)).toList ∧
    t.decResponses = s.decResponses ++ (decoderAnswer (decode r)).toList := by
  rw [stepPerformsDecodedRequest s r rest hs hr, exec_eq] at h
  cases h
  exact ⟨rfl, rfl⟩

/-- Settles O8: what either machine adds is read off the decoded request by `step_responses`. -/
theorem responseDependsOnRequestAlone : Obligations.ResponseDependsOnRequestAlone := by
  unfold Obligations.ResponseDependsOnRequestAlone
  intro s₁ s₂ t₁ t₂ r rest₁ rest₂ hs₁ hs₂ hr₁ hr₂ h₁ h₂
  obtain ⟨he₁, hd₁⟩ := step_responses hs₁ hr₁ h₁
  obtain ⟨he₂, hd₂⟩ := step_responses hs₂ hr₂ h₂
  exact ⟨_, _, he₁, he₂, hd₁, hd₂, answers_length (decode r)⟩

/-- A run that performs the oldest requests `rs` leaves the rest waiting; each unit's list grows by the
unit's answers to `rs`, in order. -/
theorem run_requests_append (rs rest : List Request) (es : List (Response 48)) (ds : List DecResponse) :
    Host.Core.run Sys2Proof.core rs.length ⟨rs ++ rest, es, ds, false⟩ = .next
      ⟨rest, es ++ rs.filterMap (fun r => encoderAnswer (decode r)),
        ds ++ rs.filterMap (fun r => decoderAnswer (decode r)), false⟩ := by
  induction rs generalizing es ds with
  | nil => simp [Host.Core.run]
  | cons r rs ih =>
    rw [List.length_cons, List.cons_append, run_succ_requests_cons, ih]
    simp only [List.filterMap_eq_flatMap_toList, List.flatMap_cons, List.append_assoc]

/-- A run that performs all waiting requests ends with none, and each unit's list has grown by the unit's
answers to them. -/
theorem run_all_requests {s t : State} {rs : List Request} (hs : s.resetAsserted = false)
    (h : Host.Core.run Sys2Proof.core rs.length { s with requests := rs } = .next t) :
    t.requests = [] ∧
    t.encResponses = s.encResponses ++ rs.filterMap (fun r => encoderAnswer (decode r)) ∧
    t.decResponses = s.decResponses ++ rs.filterMap (fun r => decoderAnswer (decode r)) := by
  have hrun := run_requests_append rs [] s.encResponses s.decResponses
  rw [List.append_nil, ← hs, h] at hrun
  cases hrun
  exact ⟨rfl, rfl, rfl⟩

/-- Settles O10: the lists grow by the answers to the requests (`run_all_requests`), and answers to a
permutation of requests are a permutation of the answers (`List.Perm.filterMap`). -/
theorem orderOfRequestsDoesNotMatter : Obligations.OrderOfRequestsDoesNotMatter := by
  unfold Obligations.OrderOfRequestsDoesNotMatter
  intro s t t' rs rs' hs hperm h h'
  obtain ⟨hreq, henc, hdec⟩ := run_all_requests hs h
  obtain ⟨hreq', henc', hdec'⟩ := run_all_requests hs h'
  rw [henc, henc', hdec, hdec']
  exact ⟨hreq, hreq', (hperm.filterMap _).append_left _, (hperm.filterMap _).append_left _⟩

end Sys2Proof.Machine

/-! PROOFS. Repeated requests, the byte form of a packed word and arrays of it (20_memory.md R41, R42, R46,
R47): O12, O42, O43 and O44. -/

namespace Sys2Proof.Machine

/-- Settles O12: each of the two steps adds what the units answer to `r` (`run_succ_requests_cons`), and
exactly one unit answers it. -/
theorem repeatedRequestRepeatsResponse : Obligations.RepeatedRequestRepeatsResponse := by
  unfold Obligations.RepeatedRequestRepeatsResponse
  intro s r hs
  refine ⟨_, _, answers_length (decode r), ?_⟩
  rw [hs, run_succ_requests_cons, run_succ_requests_cons]
  rfl

/-! ## The byte form -/

/-- The six bytes of a word, the lowest least significant, make up the word again (R42). -/
@[simp] theorem wordOf_bytesOf (p : Packed) : wordOf (bytesOf p) = p := by
  apply BitVec.eq_of_toNat_eq
  rw [wordOf_toNat]
  simp only [bytesOf, packedByte_toNat]
  omega

/-- Different bytes make up different words (R42): the bytes are the digits of the word to the base 256. -/
theorem wordOf_injective : Function.Injective wordOf := by
  intro b c h
  have hn := congrArg BitVec.toNat h
  rw [wordOf_toNat, wordOf_toNat] at hn
  obtain ⟨b0, b1, b2, b3, b4, b5⟩ := b
  obtain ⟨c0, c1, c2, c3, c4, c5⟩ := c
  simp only [PackedBytes.mk.injEq, ← BitVec.toNat_inj] at hn ⊢
  omega

/-- Settles O42: `bytesOf` is a right inverse of `wordOf`, which is injective, so it is its left inverse
too. -/
theorem bytesAndWordAreInverse : Obligations.BytesAndWordAreInverse := by
  unfold Obligations.BytesAndWordAreInverse
  exact ⟨wordOf_bytesOf, fun b => wordOf_injective (wordOf_bytesOf (wordOf b))⟩

/-! ## Arrays of packed words -/

theorem packedArray_cons (p : Packed) (ps : List Packed) :
    packedArray (p :: ps) = (bytesOf p).toList ++ packedArray ps := List.flatMap_cons

theorem bytesOf_toList_length (p : Packed) : (bytesOf p).toList.length = 6 := rfl

/-- The bytes of a word stand in address order (R40). -/
theorem bytesOf_toList_getElem? (p : Packed) {i : Nat} (hi : i < 6) :
    (bytesOf p).toList[i]? = some (packedByte p i) := by
  interval_cases i <;> rfl

theorem packedArray_length (ps : List Packed) : (packedArray ps).length = 6 * ps.length := by
  induction ps with
  | nil => rfl
  | cons p ps ih =>
    rw [packedArray_cons, List.length_append, bytesOf_toList_length, ih, List.length_cons]
    omega

/-- Word `k` of an array starts at byte `6 k` (R46): each word ahead of it takes six bytes. -/
theorem packedArray_getElem? {ps : List Packed} {k i : Nat} {p : Packed} (hk : ps[k]? = some p)
    (hi : i < 6) : (packedArray ps)[6 * k + i]? = some (packedByte p i) := by
  induction ps generalizing k with
  | nil => cases hk
  | cons q ps ih =>
    rw [packedArray_cons]
    cases k with
    | zero =>
      obtain rfl : q = p := Option.some.inj hk
      rw [Nat.mul_zero, Nat.zero_add, List.getElem?_append_left hi, bytesOf_toList_getElem? q hi]
    | succ k =>
      have hpos : 6 * (k + 1) + i = (bytesOf q).toList.length + (6 * k + i) := by
        rw [bytesOf_toList_length]
        omega
      rw [hpos, List.getElem?_append_right (Nat.le_add_right _ _), Nat.add_sub_cancel_left]
      exact ih hk

/-- Settles O44: the length and the position of a byte, each by induction over the array. -/
theorem packedArraysHaveStrideSix : Obligations.PackedArraysHaveStrideSix := by
  unfold Obligations.PackedArraysHaveStrideSix
  exact fun ps => ⟨packedArray_length ps, fun _ _ _ hk hi => packedArray_getElem? hk hi⟩

/-! ## Where the fields fall -/

/-- Bytes 1 to 4 are the low 32 bits of the mantissa, eight by eight from its low bits up (R41). -/
theorem packedByte_succ_eq_man (p : Packed) {j : Nat} (hj : j < 4) :
    packedByte p (j + 1) = (Packed.man p).extractLsb' (8 * j) 8 := by
  apply BitVec.eq_of_toNat_eq
  rw [packedByte_toNat, BitVec.extractLsb'_toNat, packed_man_toNat, Nat.shiftRight_eq_div_pow]
  interval_cases j <;> omega

/-- The low 7 bits of byte 5 are the top 7 bits of the mantissa (R41). -/
theorem packedByte_five_low (p : Packed) :
    (packedByte p 5).extractLsb' 0 7 = (Packed.man p).extractLsb' 32 7 := by
  apply BitVec.eq_of_toNat_eq
  rw [BitVec.extractLsb'_toNat, BitVec.extractLsb'_toNat, packedByte_toNat, packed_man_toNat,
    Nat.shiftRight_eq_div_pow, Nat.shiftRight_eq_div_pow]
  omega

/-- The top bit of byte 5 is the sign (R41). -/
theorem packedByte_five_high (p : Packed) : (packedByte p 5).extractLsb' 7 1 = Packed.sign p := by
  apply BitVec.eq_of_toNat_eq
  rw [BitVec.extractLsb'_toNat, packedByte_toNat, packed_sign_toNat, Nat.shiftRight_eq_div_pow]
  omega

/-- Settles O43: byte 0 is the slice that `Packed.exp` reads, the other bytes are read off the lemmas above,
and the bytes of 1.0 and -2.5 are evaluated. -/
theorem fieldsFallOnBytes : Obligations.FieldsFallOnBytes := by
  unfold Obligations.FieldsFallOnBytes
  refine ⟨fun p => ⟨rfl, ?_, ?_, ?_, ?_, packedByte_five_low p, packedByte_five_high p⟩,
    by decide, by decide⟩
  · exact packedByte_succ_eq_man p (j := 0) (by decide)
  · exact packedByte_succ_eq_man p (j := 1) (by decide)
  · exact packedByte_succ_eq_man p (j := 2) (by decide)
  · exact packedByte_succ_eq_man p (j := 3) (by decide)

end Sys2Proof.Machine

/-! PROOFS. Requests, responses on wires and pins, and the requester's lines (30_encoding.md): O5, O6, O15 to
O20, O34, O36 to O40 and O49. -/

namespace Sys2Proof.Machine

/-! ## Decoding and encoding requests -/

@[simp] theorem decode_requestOf_00 (v : BitVec 64) : decode (requestOf 0b00#2 v) = .encF64 v := by
  rw [decode_of_op_00 (opOf_requestOf _ _), operandOf_requestOf]

@[simp] theorem decode_requestOf_01 (v : BitVec 64) :
    decode (requestOf 0b01#2 v) = .encF32 (floatOperand v) := by
  rw [decode_of_op_01 (opOf_requestOf _ _), operandOf_requestOf]

@[simp] theorem decode_requestOf_10 (v : BitVec 64) :
    decode (requestOf 0b10#2 v) = .decF64 (packedOperand v) := by
  rw [decode_of_op_10 (opOf_requestOf _ _), operandOf_requestOf]

@[simp] theorem decode_requestOf_11 (v : BitVec 64) :
    decode (requestOf 0b11#2 v) = .decF32 (packedOperand v) := by
  rw [decode_of_op_11 (opOf_requestOf _ _), operandOf_requestOf]

/-- The operand slice an operation takes holds what `encode` put there (R69). -/
@[simp] theorem decode_encode (i : Instr) : decode (encode i) = i := by
  cases i with
  | encF64 d => exact decode_requestOf_00 d
  | encF32 x => exact (decode_requestOf_01 _).trans (congrArg Instr.encF32 (floatOperand_setWidth x))
  | decF64 p => exact (decode_requestOf_10 _).trans (congrArg Instr.decF64 (packedOperand_setWidth p))
  | decF32 p => exact (decode_requestOf_11 _).trans (congrArg Instr.decF32 (packedOperand_setWidth p))

/-- The number of a request is one of 66 bits, so it is not turned away (R76). -/
theorem decodeBits_toNat (r : Request) : decodeBits r.toNat = .ok (decode r) := by
  have hw : requestWellFormed r.toNat = true := decide_eq_true r.isLt
  rw [decodeBits, if_pos hw, BitVec.ofNat_toNat, BitVec.setWidth_eq]

/-- Settles O17: `decode_encode`, and the number of the encoded request decodes as the request does. -/
theorem decodeInvertsEncode : Obligations.DecodeInvertsEncode := by
  unfold Obligations.DecodeInvertsEncode
  intro i _
  have hbits : decodeBits (encode i).toNat = .ok i := by rw [decodeBits_toNat, decode_encode]
  exact ⟨decode_encode i, hbits, by rw [decodeTableWord, hbits]⟩

/-- Settles O16: the codes are read by the four `decode_requestOf` lemmas, and a request is put together
again from its two parts. -/
theorem requestFormatCoversEveryRequest : Obligations.RequestFormatCoversEveryRequest := by
  unfold Obligations.RequestFormatCoversEveryRequest
  refine ⟨fun v => ⟨decode_requestOf_00 v, decode_requestOf_01 v, decode_requestOf_10 v,
    decode_requestOf_11 v⟩, fun r => ⟨opOf r, operandOf r, (requestOf_parts r).symm, ?_, op_cases _⟩⟩
  rw [← requestOf_toNat, requestOf_parts]

@[simp] theorem opOf_encode (i : Instr) : opOf (encode i) = opCode i := opOf_requestOf _ _

@[simp] theorem operandOf_encode (i : Instr) : operandOf (encode i) = operandBits i :=
  operandOf_requestOf _ _

/-- Settles O18: by cases on the operation code, which says the operation and so which low bits of the
operand it keeps. -/
theorem encodeOfDecodeClearsIgnoredBits : Obligations.EncodeOfDecodeClearsIgnoredBits := by
  unfold Obligations.EncodeOfDecodeClearsIgnoredBits
  intro r
  rw [opOf_encode, operandOf_encode]
  rcases op_cases (opOf r) with h | h | h | h
  · rw [decode_of_op_00 h, h]
    exact ⟨rfl, rfl⟩
  · rw [decode_of_op_01 h, h, ← floatOperand_toNat]
    exact ⟨rfl, BitVec.toNat_setWidth_of_le (by decide)⟩
  · rw [decode_of_op_10 h, h, ← packedOperand_toNat]
    exact ⟨rfl, BitVec.toNat_setWidth_of_le (by decide)⟩
  · rw [decode_of_op_11 h, h, ← packedOperand_toNat]
    exact ⟨rfl, BitVec.toNat_setWidth_of_le (by decide)⟩

/-- Settles O15: the six words are evaluated. -/
theorem requestWordsDecode : Obligations.RequestWordsDecode := by
  unfold Obligations.RequestWordsDecode
  decide

/-- Settles O20: below 2^66 a number is the number of a request and decodes; from there on it is turned
away. -/
theorem onlyOverlongNumbersAreRejected : Obligations.OnlyOverlongNumbersAreRejected := by
  unfold Obligations.OnlyOverlongNumbersAreRejected
  intro w
  rcases Nat.lt_or_ge w (2 ^ 66) with h | h
  · have hw : requestWellFormed w = true := decide_eq_true h
    simpa [decodeBits, hw] using h
  · have hw : requestWellFormed w = false := decide_eq_false (Nat.not_lt.mpr h)
    simpa [decodeBits, hw] using h

/-! ## Steps -/

/-- Settles O5: a step changes nothing or is an operation, which `exec_eq` answers. -/
theorem everyStepAnswersNext : Obligations.EveryStepAnswersNext := by
  unfold Obligations.EveryStepAnswersNext
  intro s
  cases ht : takeRequest s with
  | none => exact ⟨s, step_of_none ht⟩
  | some q => exact ⟨_, (step_of_some ht).trans (exec_eq _ _)⟩

/-- Settles O6: the step adds the units' answers to the request, of which the decoded operation says that
one is there and the other is not. -/
theorem everyRequestGetsOneResponse : Obligations.EveryRequestGetsOneResponse := by
  unfold Obligations.EveryRequestGetsOneResponse
  intro s r rest hs hr
  rw [stepPerformsDecodedRequest s r rest hs hr, exec_eq]
  refine ⟨_, rfl, rfl, hs, ?_⟩
  cases decode r with
  | encF64 _ | encF32 _ => exact .inl ⟨_, rfl, List.append_nil _⟩
  | decF64 _ | decF32 _ => exact .inr ⟨_, List.append_nil _, rfl⟩

/-- Requests of the same operation get the same response, and a step on either has the same outcome. -/
theorem respond_step_of_decode_eq {r q : Request} (h : decode r = decode q) :
    respond r = respond q ∧ ∀ (s : State) (rest : List Request),
      step { s with requests := r :: rest, resetAsserted := false }
        = step { s with requests := q :: rest, resetAsserted := false } :=
  ⟨by rw [respond, respond, h], fun s rest => by rw [step_requests_cons, step_requests_cons, h]⟩

/-- Settles O19: requests that agree in the bits used decode to the same operation. -/
theorem ignoredBitsNeverChangeTheResponse : Obligations.IgnoredBitsNeverChangeTheResponse := by
  unfold Obligations.IgnoredBitsNeverChangeTheResponse
  constructor
  · intro v v' h
    have h : floatOperand v = floatOperand v' := h
    exact respond_step_of_decode_eq (by rw [decode_requestOf_01, decode_requestOf_01, h])
  · intro op v v' hop h
    have h : packedOperand v = packedOperand v' := h
    rcases hop with rfl | rfl
    · exact respond_step_of_decode_eq (by rw [decode_requestOf_10, decode_requestOf_10, h])
    · exact respond_step_of_decode_eq (by rw [decode_requestOf_11, decode_requestOf_11, h])

/-! ## The response on wires and pins -/

@[simp] theorem toLines_ok {w : Nat} (v : BitVec w) :
    (Result.ok v).toLines = .ok (v.setWidth 64) := rfl

@[simp] theorem toLines_error {w : Nat} (k : ErrorKind) :
    (Result.error k : Response w).toLines = .error k := rfl

@[simp] theorem status_toLines {w : Nat} (a : Response w) : a.toLines.status = a.status := by
  cases a <;> rfl

/-- A response in the 64 lines succeeds exactly with a success of the unit, zeros above its value (R72). -/
theorem toLines_eq_ok_iff {w : Nat} {a : Response w} {v : BitVec 64} :
    a.toLines = .ok v ↔ ∃ u, a = .ok u ∧ u.setWidth 64 = v := by
  cases a <;> simp

theorem respond_of_encF64 {r : Request} {d : Binary64} (h : decode r = .encF64 d) :
    respond r = (encodeF64 d).toLines := by rw [respond, h]

theorem respond_of_encF32 {r : Request} {x : Binary32} (h : decode r = .encF32 x) :
    respond r = (encodeF32 x).toLines := by rw [respond, h]

theorem respond_of_decF64 {r : Request} {p : Packed} (h : decode r = .decF64 p) :
    respond r = (decodeF64 p).toLines := by rw [respond, h]

theorem respond_of_decF32 {r : Request} {p : Packed} (h : decode r = .decF32 p) :
    respond r = (decodeF32 p).toLines := by rw [respond, h]

theorem respond_encode_encF64 (d : Binary64) : respond (encode (.encF64 d)) = (encodeF64 d).toLines :=
  respond_of_encF64 (decode_encode _)

theorem respond_encode_encF32 (x : Binary32) : respond (encode (.encF32 x)) = (encodeF32 x).toLines :=
  respond_of_encF32 (decode_encode _)

theorem respond_encode_decF64 (p : Packed) : respond (encode (.decF64 p)) = (decodeF64 p).toLines :=
  respond_of_decF64 (decode_encode _)

theorem respond_encode_decF32 (p : Packed) : respond (encode (.decF32 p)) = (decodeF32 p).toLines :=
  respond_of_decF32 (decode_encode _)

/-- The status wires stand above the result lines (R70). -/
theorem respondWires_status (r : Request) : (respondWires r).extractLsb' 64 2 = (respond r).status :=
  opOf_requestOf _ _

theorem respondWires_lines (r : Request) :
    (respondWires r).extractLsb' 0 64 = (respond r).value (Config.errResult r) :=
  operandOf_requestOf _ _

theorem value_of_eq_ok {w : Nat} {a : Response w} {v : BitVec w} (h : a = .ok v) (lines : BitVec w) :
    a.value lines = v := by rw [h, Result.value]

/-- Settles O36: the wires are cut into the status and the value of the response. -/
theorem wiresCarryStatusAndValue : Obligations.WiresCarryStatusAndValue := by
  unfold Obligations.WiresCarryStatusAndValue
  intro r
  rw [respondWires_status, respondWires_lines]
  exact ⟨fun v h => ⟨congrArg Result.status h, value_of_eq_ok h _⟩,
    congrArg Result.status, congrArg Result.status, congrArg Result.status⟩

/-- A value widened to the 64 lines stands in its low bits. -/
theorem extractLsb'_zero_setWidth {w : Nat} (hw : w ≤ 64) (u : BitVec w) :
    (u.setWidth 64).extractLsb' 0 w = u := by
  rw [← BitVec.setWidth_eq_extractLsb' hw, BitVec.setWidth_setWidth_of_le _ hw, BitVec.setWidth_eq]

/-- Above a value widened to the 64 lines stand zeros. -/
theorem extractLsb'_above_setWidth {w : Nat} (u : BitVec w) (k : Nat) :
    (u.setWidth 64).extractLsb' w k = 0#k := by
  ext i hi
  simp

/-- A success in the 64 lines is the unit's value in the low bits of the lines, zeros above it (R72). -/
theorem toLines_eq_ok_slices {w : Nat} (hw : w ≤ 64) {a : Response w} {v : BitVec 64}
    (h : a.toLines = .ok v) : a = .ok (v.extractLsb' 0 w) ∧ ∀ k, v.extractLsb' w k = 0#k := by
  obtain ⟨u, hu, rfl⟩ := toLines_eq_ok_iff.mp h
  rw [extractLsb'_zero_setWidth hw]
  exact ⟨hu, extractLsb'_above_setWidth u⟩

/-- A double fills the 64 lines. -/
@[simp] theorem toLines_eq_self (a : Response 64) : a.toLines = a := by
  cases a <;> simp

/-- Settles O37: the response is that of the operation's unit in the 64 lines, which `toLines_eq_ok_slices`
cuts at the width of its value. -/
theorem resultIsPlacedWithZeroFill : Obligations.ResultIsPlacedWithZeroFill := by
  unfold Obligations.ResultIsPlacedWithZeroFill
  intro v
  refine ⟨fun d h => ?_, fun x h => ?_, fun p h => ?_, fun p h => ?_⟩
  · rw [respond_encode_encF64] at h
    exact (toLines_eq_ok_slices (by decide) h).imp_right (· 16)
  · rw [respond_encode_encF32] at h
    exact (toLines_eq_ok_slices (by decide) h).imp_right (· 16)
  · rwa [respond_encode_decF64, toLines_eq_self] at h
  · rw [respond_encode_decF32] at h
    exact (toLines_eq_ok_slices (by decide) h).imp_right (· 32)

/-- The response to a request of the encoder, by the format bit `op[0]` (R68). -/
theorem respond_encoder (fmt : BitVec 1) (v : BitVec 64) :
    respond (requestOf (0#1 ++ fmt) v)
      = (if fmt = 0#1 then encodeF64 v else encodeF32 (floatOperand v)).toLines := by
  rcases BitVec.eq_zero_or_eq_one fmt with rfl | rfl
  · exact respond_of_encF64 (decode_requestOf_00 v)
  · exact respond_of_encF32 (decode_requestOf_01 v)

/-- The response to a request of the decoder, by the format bit `op[0]` (R68). -/
theorem respond_decoder (fmt : BitVec 1) (v : BitVec 64) :
    respond (requestOf (1#1 ++ fmt) v)
      = if fmt = 0#1 then (decodeF64 (packedOperand v)).toLines
        else (decodeF32 (packedOperand v)).toLines := by
  rcases BitVec.eq_zero_or_eq_one fmt with rfl | rfl
  · exact respond_of_decF64 (decode_requestOf_10 v)
  · exact respond_of_decF32 (decode_requestOf_11 v)

/-- Settles O38: both units choose by the format bit the operation that the request asks for; the encoder's
pins have its word at its own width, the decoder's the 64 lines. -/
theorem pinsCarryTheResponse : Obligations.PinsCarryTheResponse := by
  unfold Obligations.PinsCarryTheResponse
  intro fmt operand
  constructor
  · rw [respond_encoder]
    exact ⟨(status_toLines _).symm,
      fun v h => value_of_eq_ok (toLines_eq_ok_slices (by decide) h).1 _⟩
  · rw [respond_decoder]
    exact ⟨rfl, fun v h => value_of_eq_ok h _⟩

/-! ## The requester's lines -/

/-- Settles O39: every line with an operand is bound through `propagate`, which passes a failure on. -/
theorem notationPropagatesFailures : Obligations.NotationPropagatesFailures := by
  unfold Obligations.NotationPropagatesFailures
  intro env x k hx
  have hp (g : Binding → Option Binding) : propagate (x.eval env) g = some (.failure k) := by
    rw [hx, propagate]
  exact ⟨fun m => hp _, hp _, hp _, hp _, hp _⟩

/-- What a line binds when a unit has answered: the value as `f` says, or the failure (R77). -/
def answerBinding {w : Nat} (f : BitVec w → Binding) : Response w → Binding
  | .ok v    => f v
  | .error k => .failure k

/-- A performed operation binds its unit's answer, provided that its mnemonic reads back the value from the
64 lines (R72, R77). -/
theorem perform_eq_of_respond {w : Nat} (m : Mnemonic) {i : Instr} {a : Response w}
    (f : BitVec w → Binding) (h : respond (encode i) = a.toLines)
    (hf : ∀ v : BitVec w, valueBinding m (v.setWidth 64) = f v) :
    perform m i = answerBinding f a := by
  cases a with
  | ok v => simp only [perform, h, toLines_ok, hf, answerBinding]
  | error k => simp only [perform, h, toLines_error, answerBinding]

/-- Settles O40: the request of an operation decodes to it, so the response is its unit's answer
(`perform_eq_of_respond`), whose value each mnemonic reads back at its own width. -/
theorem performBindsTheUnitsAnswer : Obligations.PerformBindsTheUnitsAnswer := by
  unfold Obligations.PerformBindsTheUnitsAnswer
  refine ⟨fun d s => ⟨_, rfl, ?_⟩, fun x s => ⟨_, rfl, ?_⟩, fun p s => ⟨_, rfl, ?_⟩,
    fun p s => ⟨_, rfl, ?_⟩⟩
  · rw [perform_eq_of_respond .ENC_F64 .packed (respond_encode_encF64 d)
      fun v => congrArg Binding.packed (packedOperand_setWidth v)]
    cases encodeF64 d <;> rfl
  · rw [perform_eq_of_respond .ENC_F32 .packed (respond_encode_encF32 x)
      fun v => congrArg Binding.packed (packedOperand_setWidth v)]
    cases encodeF32 x <;> rfl
  · rw [perform_eq_of_respond .DEC_F64 .double (respond_encode_decF64 p)
      fun v => congrArg Binding.double (BitVec.setWidth_eq v)]
    cases decodeF64 p <;> rfl
  · rw [perform_eq_of_respond .DEC_F32 .float (respond_encode_decF32 p)
      fun v => congrArg Binding.float (floatOperand_setWidth v)]
    cases decodeF32 p <;> rfl

/-! ## Negation and value of a decoded word -/

theorem classify_zero {p : Packed} (h : Packed.exp p = 0#8) : classify p = .zero := if_pos h

theorem classify_normal {p : Packed} (h : Packed.exp p ≠ 0#8) : classify p = .normal := if_neg h

/-- Negation keeps the exponent field. -/
@[simp] theorem exp_neg (p : Packed) : Packed.exp (neg p) = Packed.exp p := (packed_flip_sign p).2.1

/-- A double put together with the other sign is the double with bit 63 inverted. -/
theorem f64_assemble_xor_sign (s : BitVec 1) (e : Int) (f : Nat) :
    F64.assemble (s ^^^ 1#1) e f = F64.assemble s e f ^^^ 0x8000000000000000#64 := by
  obtain ⟨hs, he, hm⟩ := f64_flip_sign (F64.assemble s e f)
  apply f64_ext
  · rw [hs, f64_sign_assemble, f64_sign_assemble]
  · rw [he, f64_exp_assemble, f64_exp_assemble]
  · rw [hm, f64_man_assemble, f64_man_assemble]

/-- `DEC_F64` of a negated word differs in the sign it puts on the double, and in nothing else. -/
theorem decodeF64_neg {p : Packed} (h : Packed.exp p ≠ 0#8) :
    ∃ d, decodeF64 p = .ok d ∧ decodeF64 (neg p) = .ok (d ^^^ 0x8000000000000000#64) := by
  obtain ⟨hs, he, hm⟩ := packed_flip_sign p
  refine ⟨_, decodeF64_normal h, ?_⟩
  rw [← f64_assemble_xor_sign, ← hs, ← he, ← hm]
  exact decodeF64_normal (by rwa [exp_neg])

/-- Settles O34: negation keeps the exponent field, which alone decides about zero; any other word decodes
with its sign inverted (`decodeF64_neg`). -/
theorem negationIsSeenAsNegation : Obligations.NegationIsSeenAsNegation := by
  unfold Obligations.NegationIsSeenAsNegation
  intro p
  rw [← exp_neg p]
  exact ⟨fun h => ⟨decodeF64_zero h, decodeF32_zero h, classify_zero h⟩,
    fun h => ⟨classify_normal h, decodeF64_neg (by rwa [exp_neg] at h)⟩⟩

/-- A mantissa widened by `k` places of zeros denotes the same magnitude. -/
theorem magnitude_widen (e : Int) (m w k : Nat) :
    magnitude e (m * 2 ^ k) (w + k) = magnitude e m w := by
  unfold magnitude
  rw [Nat.cast_mul, Nat.cast_pow, Nat.cast_ofNat, pow_add, mul_div_mul_right _ _ (by positivity)]

/-- Settles O49: the fields of the double (`decodeF64_fields`) are those of the word, the exponent rebiased
and the mantissa widened by 13 zeros. -/
theorem decodingToDoubleIsExact : Obligations.DecodingToDoubleIsExact := by
  unfold Obligations.DecodingToDoubleIsExact
  intro p h
  obtain ⟨d, hd, hs, he, hm⟩ := decodeF64_fields h
  have hlt := (Packed.exp p).isLt
  refine ⟨d, hd, by omega, by omega, ?_⟩
  have hexp : ((F64.exp d).toNat : Int) - 1023 = (Packed.exp p).toNat - 129 := by omega
  calc normalValueF64 d
      = signFactor (F64.sign d) * magnitude ((F64.exp d).toNat - 1023) (F64.man d).toNat 52 := rfl
    _ = signFactor (Packed.sign p) * magnitude ((Packed.exp p).toNat - 129) (Packed.man p).toNat 39 := by
      rw [hs, hexp, hm, magnitude_widen _ _ 39 13]
    _ = packedValue p := (packedValue_normal h).symm

end Sys2Proof.Machine

/-! PROOFS. The encoder's answers (40_encoder.md) and the invariant of sound responses: O13, O14, O21 to O25,
O41, O50 and O51. -/

namespace Sys2Proof.Machine

/-! ## Canonical words (R104) -/

theorem encodeF64_canonical {d : Binary64} {p : Packed} (h : encodeF64 d = .ok p) : canonical p := by
  rcases encodeF64_ok h with ⟨-, hp⟩ | ⟨h0, -, -, -, he, -⟩ | ⟨h0, -, -, -, he, -⟩
  · exact .inl hp
  · exact .inr (by omega)
  · exact .inr (by omega)

theorem encodeF32_canonical {x : Binary32} {p : Packed} (h : encodeF32 x = .ok p) : canonical p := by
  rcases encodeF32_ok h with ⟨-, hp⟩ | ⟨-, -, -, he, -⟩
  · exact .inl hp
  · exact .inr (by omega)

/-- Settles O23: a success of either operation is canonical, and a canonical word with packed exponent 0 is the
canonical zero. -/
theorem encoderProducesOnlyCanonicalWords : Obligations.EncoderProducesOnlyCanonicalWords := by
  unfold Obligations.EncoderProducesOnlyCanonicalWords
  intro p h
  have hc : canonical p := by
    rcases h with ⟨d, h⟩ | ⟨x, h⟩
    · exact encodeF64_canonical h
    · exact encodeF32_canonical h
  rcases hc with hz | he
  · exact ⟨.inl hz, fun h => h.2 hz⟩
  · exact ⟨.inr ⟨he, Nat.le_of_lt_succ (Packed.exp p).isLt⟩,
      fun h => packed_exp_ne_zero_iff.mpr he h.1⟩

/-! ## Sound responses -/

/-- Settles O14: no response stands in `State.reset`. -/
theorem resetResponsesSound : Obligations.ResetResponsesSound := by
  unfold Obligations.ResetResponsesSound
  exact ⟨List.forall_mem_nil _, List.forall_mem_nil _⟩

theorem encResponseSound_of_ok {a : Response 48} (h : ∀ p, a = .ok p → canonical p) :
    EncResponseSound a := by
  cases a with
  | ok p => exact h p rfl
  | error _ => trivial

theorem classify_eq_zero_iff (p : Packed) : classify p = .zero ↔ Packed.exp p = 0#8 := by
  refine ⟨fun h => ?_, classify_zero⟩
  by_contra hne
  rw [classify_normal hne] at h
  cases h

/-- `DEC_F64` answers +0 for a zero pattern and otherwise a normal double of the range of R135. -/
theorem decodeF64_sound (p : Packed) : DecResponseSound (decResponse p (.f64 (decodeF64 p))) := by
  refine ⟨classify_eq_zero_iff p, ?_⟩
  by_cases h : Packed.exp p = 0#8
  · rw [decodeF64_zero h]
    exact (if_pos h).mpr rfl
  · obtain ⟨d, hd, hs, he, hm⟩ := decodeF64_fields h
    have h0 := packed_exp_ne_zero_iff.mp h
    have hlt := (Packed.exp p).isLt
    rw [hd]
    exact (if_neg h).mpr ⟨hs, by omega, by omega, by omega⟩

/-- `DEC_F32` answers +0 for a zero pattern, `Underflow` for packed exponents 1 and 2, and otherwise a normal
float. -/
theorem decodeF32_sound (p : Packed) : DecResponseSound (decResponse p (.f32 (decodeF32 p))) := by
  refine ⟨classify_eq_zero_iff p, ?_⟩
  by_cases h : Packed.exp p = 0#8
  · rw [decodeF32_zero h]
    exact (if_pos h).mpr rfl
  · have h0 := packed_exp_ne_zero_iff.mp h
    have hlt := (Packed.exp p).isLt
    by_cases h3 : 3 ≤ (Packed.exp p).toNat
    · obtain ⟨x, hx, hs, hf⟩ := decodeF32_fields h3
      rw [hx]
      exact (if_neg h).mpr ⟨h3, hs, by omega, by omega⟩
    · rw [decodeF32_underflow h0 (by omega)]
      refine ⟨rfl, ?_⟩
      simp only [decResponse_exp, ← BitVec.toNat_inj, BitVec.toNat_ofNat]
      omega

theorem encoderAnswer_sound {i : Instr} {a : Response 48} (h : encoderAnswer i = some a) :
    EncResponseSound a := by
  cases i with
  | encF64 d => cases h; exact encResponseSound_of_ok fun _ => encodeF64_canonical
  | encF32 x => cases h; exact encResponseSound_of_ok fun _ => encodeF32_canonical
  | decF64 _ | decF32 _ => cases h

theorem decoderAnswer_sound {i : Instr} {a : DecResponse} (h : decoderAnswer i = some a) :
    DecResponseSound a := by
  cases i with
  | encF64 _ | encF32 _ => cases h
  | decF64 p => cases h; exact decodeF64_sound p
  | decF32 p => cases h; exact decodeF32_sound p

/-- Settles O13: a step either changes nothing or adds the units' answers to one request (`step_cases`), and
each unit's answer to any operation is sound. -/
theorem stepKeepsResponsesSound : Obligations.StepKeepsResponsesSound := by
  unfold Obligations.StepKeepsResponsesSound
  intro s t hs h
  rcases step_cases h with ⟨rfl, -⟩ | ⟨r, s', ht, rfl⟩
  · exact hs
  · obtain ⟨-, -, hes, hds, -⟩ := (takeRequest_some_iff s s' r).mp ht
    obtain ⟨henc, hdec⟩ := hs
    rw [← hes] at henc
    rw [← hds] at hdec
    exact ⟨List.forall_mem_append.mpr
        ⟨henc, fun _ ha => encoderAnswer_sound (Option.mem_toList.mp ha)⟩,
      List.forall_mem_append.mpr
        ⟨hdec, fun _ ha => decoderAnswer_sound (Option.mem_toList.mp ha)⟩⟩

/-! ## Packing and unpacking (R100, R130) -/

/-- `pack` of the numbers of three fields is the word with these fields. -/
theorem pack_toNat (s : BitVec 1) (e : BitVec 8) (m : BitVec 39) :
    pack s e.toNat m.toNat = Packed.ofFields s m e := by
  simp only [pack, BitVec.ofInt_natCast, BitVec.ofNat_toNat, BitVec.setWidth_eq]

/-- Settles O41: both directions are those of `Packed.ofFields` and the fields of a word. -/
theorem packAndUnpackAreInverse : Obligations.PackAndUnpackAreInverse := by
  unfold Obligations.PackAndUnpackAreInverse
  refine ⟨fun s e m => ?_, fun p => ?_⟩
  · rw [pack_toNat, unpack, packed_sign_ofFields, packed_exp_ofFields, packed_man_ofFields]
  · exact (pack_toNat _ _ _).trans (packed_ofFields_fields p)

/-! ## The answers by exponent field (R101, R102) -/

theorem exec_encF64 (d : Binary64) (s : State) :
    exec (.encF64 d) s = .next { s with encResponses := s.encResponses ++ [encodeF64 d] } := rfl

theorem exec_encF32 (x : Binary32) (s : State) :
    exec (.encF32 x) s = .next { s with encResponses := s.encResponses ++ [encodeF32 x] } := rfl

theorem roundedMan64_eq_div (d : Binary64) :
    roundedMan64 d = ((F64.man d).toNat + 2 ^ 12) / 2 ^ 13 := roundHalfUp_eq_div _ _ _

/-- What `ENC_F64` gives where the rounded mantissa fits, field by field. -/
theorem encodeF64_round_fields {d : Binary64} (h0 : 895 ≤ (F64.exp d).toNat)
    (h : (F64.exp d).toNat ≤ 1149) (hm : roundedMan64 d < 2 ^ 39) :
    ∃ p, encodeF64 d = .ok p ∧ Packed.sign p = F64.sign d
      ∧ (Packed.exp p).toNat = (F64.exp d).toNat - 894 ∧ (Packed.man p).toNat = roundedMan64 d := by
  obtain ⟨hs, he, hf⟩ := pack_fields (F64.sign d) (e := (F64.exp d).toNat - 894) (by omega) (by omega) hm
  exact ⟨_, encodeF64_round h0 h hm.ne, hs, by omega, hf⟩

/-- What `ENC_F64` gives where rounding carries into the exponent, field by field. -/
theorem encodeF64_carry_fields {d : Binary64} (h0 : 895 ≤ (F64.exp d).toNat)
    (h : (F64.exp d).toNat ≤ 1148) (hm : roundedMan64 d = 2 ^ 39) :
    ∃ p, encodeF64 d = .ok p ∧ Packed.sign p = F64.sign d
      ∧ (Packed.exp p).toNat = (F64.exp d).toNat - 893 ∧ (Packed.man p).toNat = 0 := by
  obtain ⟨hs, he, hf⟩ := pack_fields (F64.sign d) (e := (F64.exp d).toNat - 894 + 1) (m := 0)
    (by omega) (by omega) (by norm_num)
  exact ⟨_, encodeF64_carry h0 h hm, hs, by omega, hf⟩

/-- What `ENC_F32` gives for a float it can pack, field by field. -/
theorem encodeF32_fields {x : Binary32} (h0 : 1 ≤ (F32.exp x).toNat) (h : (F32.exp x).toNat ≤ 253) :
    ∃ p, encodeF32 x = .ok p ∧ Packed.sign p = F32.sign x
      ∧ (Packed.exp p).toNat = (F32.exp x).toNat + 2
      ∧ (Packed.man p).toNat = (F32.man x).toNat * 2 ^ 16 := by
  have hlt := (F32.man x).isLt
  obtain ⟨hs, he, hf⟩ := pack_fields (F32.sign x) (e := (F32.exp x).toNat + 2)
    (m := (F32.man x).toNat * 2 ^ 16) (by omega) (by omega) (by omega)
  exact ⟨_, encodeF32_normal h0 h, hs, by omega, hf⟩

/-- Settles O21: the encoder adds `encodeF64 d`, which the lemmas about it give range by range; at exponent
field 1149 the mantissas from 2^52 - 2^12 on are those that round to 2^39. -/
theorem encF64AnswersByExponent : Obligations.EncF64AnswersByExponent := by
  unfold Obligations.EncF64AnswersByExponent
  refine ⟨decode_requestOf_00, fun d s => ?_⟩
  have hr := roundedMan64_eq_div d
  rw [exec_encF64, ← hr]
  refine ⟨fun h => ?zero, fun h0 h => ?underflow, fun h0 h hm => ?round, fun h0 h hm => ?carry,
    fun h hm => ?carryOverflow, fun h0 h => ?overflow, fun h => ?nonFinite⟩
  case zero => rw [encodeF64_zero h, canonicalZero]
  case underflow => rw [encodeF64_underflow h0 h]
  case round =>
    obtain ⟨p, hp, hf⟩ := encodeF64_round_fields h0 h hm
    exact ⟨p, by rw [hp], hf⟩
  case carry =>
    obtain ⟨p, hp, hf⟩ := encodeF64_carry_fields h0 h hm
    exact ⟨p, by rw [hp], hf⟩
  case carryOverflow =>
    have hlt := (F64.man d).isLt
    rw [encodeF64_carry_overflow h (by omega)]
  case overflow => rw [encodeF64_overflow h0 h]
  case nonFinite => rw [encodeF64_nonFinite h]

/-- Settles O22: the encoder adds `encodeF32 x`, which the lemmas about it give range by range. -/
theorem encF32AnswersByExponent : Obligations.EncF32AnswersByExponent := by
  unfold Obligations.EncF32AnswersByExponent
  refine ⟨decode_requestOf_01, fun x s => ?_⟩
  rw [exec_encF32]
  refine ⟨fun h => ?zero, fun h0 h => ?normal, fun h => ?overflow, fun h => ?nonFinite⟩
  case zero => rw [encodeF32_zero h, canonicalZero]
  case normal =>
    obtain ⟨p, hp, hf⟩ := encodeF32_fields h0 h
    exact ⟨p, by rw [hp], hf⟩
  case overflow => rw [encodeF32_overflow h]
  case nonFinite => rw [encodeF32_nonFinite h]

/-! ## The sign (R108) -/

/-- A word packed with the other sign is the word with bit 47 inverted. -/
theorem pack_xor_sign (s : BitVec 1) (e : Int) (m : Nat) :
    pack (s ^^^ 1#1) e m = pack s e m ^^^ 0x800000000000#48 := by
  obtain ⟨hs, he, hm⟩ := packed_flip_sign (pack s e m)
  apply packed_ext
  · rw [hs, pack, pack, packed_sign_ofFields, packed_sign_ofFields]
  · rw [hm, pack, pack, packed_man_ofFields, packed_man_ofFields]
  · rw [he, pack, pack, packed_exp_ofFields, packed_exp_ofFields]

/-- `ENC_F64` of a double that is no zero and no subnormal commutes with negation, failures included. -/
theorem encodeF64_xor_sign {d : Binary64} (h0 : (F64.exp d).toNat ≠ 0) :
    encodeF64 (d ^^^ 0x8000000000000000#64) = (encodeF64 d).map (· ^^^ 0x800000000000#48) := by
  obtain ⟨hs, he, hm⟩ := f64_flip_sign d
  by_cases h : (F64.exp d).toNat = 2047
  · rw [encodeF64_nonFinite h, encodeF64_nonFinite (by rwa [he])]
    rfl
  · rw [encodeF64_normal h0 h, encodeF64_normal (by rwa [he]) (by rwa [he]), hs, he, hm]
    cases narrow 255 39 ROUND64 SHIFT64 ((F64.exp d).toNat - 894) (F64.man d).toNat with
    | ok v => exact congrArg Result.ok (pack_xor_sign _ _ _)
    | error k => rfl

/-- `ENC_F32` of a float it can pack commutes with negation. -/
theorem encodeF32_xor_sign {x : Binary32} (h0 : 1 ≤ (F32.exp x).toNat) (h : (F32.exp x).toNat ≤ 253) :
    encodeF32 (x ^^^ 0x80000000#32) = (encodeF32 x).map (· ^^^ 0x800000000000#48) := by
  obtain ⟨hs, he, hm⟩ := f32_flip_sign x
  rw [encodeF32_normal h0 h, encodeF32_normal (by rwa [he]) (by rwa [he]), hs, he, hm, pack_xor_sign]
  rfl

theorem sign_canonicalZero : Packed.sign canonicalZero = 0#1 := by decide

/-- Settles O24: a success that is not the canonical zero carries the operand's sign (`encodeF64_ok`,
`encodeF32_ok`), and the sign is all that inverting it changes. -/
theorem encoderCopiesTheSign : Obligations.EncoderCopiesTheSign := by
  unfold Obligations.EncoderCopiesTheSign
  refine ⟨fun d p h => ⟨fun hp => hp ▸ sign_canonicalZero, fun hp => ?_⟩,
    fun x p h => ⟨fun hp => hp ▸ sign_canonicalZero, fun hp => ?_⟩⟩
  · have hf : (F64.exp d).toNat ≠ 0 ∧ Packed.sign p = F64.sign d := by
      rcases encodeF64_ok h with ⟨-, hz⟩ | ⟨h0, -, -, hs, -⟩ | ⟨h0, -, -, hs, -⟩
      · exact absurd hz hp
      · exact ⟨by omega, hs⟩
      · exact ⟨by omega, hs⟩
    exact ⟨hf.2, by rw [encodeF64_xor_sign hf.1, h, result_map_ok]⟩
  · rcases encodeF32_ok h with ⟨-, hz⟩ | ⟨h0, hle, hs, -⟩
    · exact absurd hz hp
    · exact ⟨hs, by rw [encodeF32_xor_sign h0 hle, h, result_map_ok]⟩

/-! ## The two encoders on one value (R107) -/

/-- A double mantissa whose low 13 bits are zero loses nothing in rounding. -/
theorem roundedMan64_of_man {d : Binary64} {m : Nat} (h : (F64.man d).toNat = m * 2 ^ 13) :
    roundedMan64 d = m := by
  rw [roundedMan64_eq_div, h]
  omega

theorem encodeF64_widenNormal {x : Binary32} (h0 : 1 ≤ (F32.exp x).toNat)
    (h : (F32.exp x).toNat ≤ 254) : encodeF64 (widenNormal x) = encodeF32 x := by
  obtain ⟨hs, he, hm⟩ := widenNormal_fields h
  have hlt := (F32.man x).isLt
  by_cases ho : (F32.exp x).toNat = 254
  · rw [encodeF32_overflow ho, encodeF64_overflow (by omega) (by omega)]
  · have hr : roundedMan64 (widenNormal x) = (F32.man x).toNat * 2 ^ 16 :=
      roundedMan64_of_man (hm.trans (by ring))
    have hexp : ((F64.exp (widenNormal x)).toNat : Int) - 894 = (F32.exp x).toNat + 2 := by omega
    rw [encodeF32_normal h0 (by omega), encodeF64_round (by omega) (by omega) (by omega), hs, hr, hexp]

/-- The bits of a subnormal float below its leading one are at most 22, so as a double it rounds exactly. -/
theorem roundedMan64_widenSubnormal_lt {x : Binary32} (hf : (F32.man x).toNat ≠ 0) :
    roundedMan64 (widenSubnormal x) < 2 ^ 39 := by
  obtain ⟨-, -, hm⟩ := widenSubnormal_fields hf
  obtain ⟨hk, -⟩ := f32_man_log2 hf
  have hlt := (F64.man (widenSubnormal x)).isLt
  have hdvd : 2 ^ 13 ∣ (F64.man (widenSubnormal x)).toNat :=
    hm ▸ Dvd.dvd.mul_left (pow_dvd_pow 2 (by omega)) _
  rw [roundedMan64_eq_div]
  omega

/-- `ENC_F64` packs a subnormal float whose double has exponent field 895 or 896. -/
theorem encodeF64_widenSubnormal {x : Binary32} (hf : (F32.man x).toNat ≠ 0)
    (h : 895 ≤ (F64.exp (widenSubnormal x)).toNat) :
    ∃ p, encodeF64 (widenSubnormal x) = .ok p ∧ p ≠ 0#48
      ∧ ((Packed.exp p).toNat = 1 ∨ (Packed.exp p).toNat = 2) := by
  obtain ⟨-, he, -⟩ := widenSubnormal_fields hf
  obtain ⟨hk, -⟩ := f32_man_log2 hf
  obtain ⟨p, hp, -, hpe, -⟩ :=
    encodeF64_round_fields h (by omega) (roundedMan64_widenSubnormal_lt hf)
  exact ⟨p, hp, ne_canonicalZero (by omega), by omega⟩

/-- Settles O25: the four classes of floats in turn. The exponent field of a subnormal one as a double says where
its leading one stands, and `ENC_F64` packs it where that is bit 21 or 22. -/
theorem encodersAgreeExceptOnSubnormals : Obligations.EncodersAgreeExceptOnSubnormals := by
  unfold Obligations.EncodersAgreeExceptOnSubnormals
  refine ⟨fun x h0 h => (encodeF64_widenNormal h0 h).symm,
    fun x d hx hd => ⟨encodeF32_nonFinite hx, encodeF64_nonFinite hd⟩,
    fun x d hx _ hd _ => ⟨encodeF32_zero hx, encodeF64_zero hd⟩, fun x hx hf => ?_⟩
  obtain ⟨-, he, -⟩ := widenSubnormal_fields hf
  obtain ⟨hk, -⟩ := f32_man_log2 hf
  exact ⟨encodeF32_zero hx, by omega, by omega, encodeF64_underflow (by omega),
    encodeF64_widenSubnormal hf⟩

/-! ## Values (R102, R103) -/

/-- Settles O50: the fields of the word (`encodeF32_ok`) are those of the float, the exponent rebiased and the
mantissa widened by 16 zeros. -/
theorem encodingAFloatIsExact : Obligations.EncodingAFloatIsExact := by
  unfold Obligations.EncodingAFloatIsExact
  intro x p h0 h
  rcases encodeF32_ok h with ⟨hz, -⟩ | ⟨-, -, hs, he, hm⟩
  · exact absurd hz h0
  have hexp : ((Packed.exp p).toNat : Int) - 129 = (F32.exp x).toNat - 127 := by omega
  calc packedValue p
      = signFactor (Packed.sign p) * magnitude ((Packed.exp p).toNat - 129) (Packed.man p).toNat 39 :=
        packedValue_normal (packed_exp_ne_zero_iff.mpr (by omega))
    _ = signFactor (F32.sign x) * magnitude ((F32.exp x).toNat - 127) (F32.man x).toNat 23 := by
      rw [hs, hexp, hm, magnitude_widen _ _ 23 16]
    _ = normalValueF32 x := rfl

/-- A mantissa that reached `2^w` is a mantissa 0 under the next exponent. -/
theorem magnitude_carry (e : Int) (w : Nat) : magnitude e (2 ^ w) w = magnitude (e + 1) 0 w := by
  unfold magnitude
  rw [Nat.cast_pow, Nat.cast_ofNat, div_self (by positivity), zpow_add_one₀ (by norm_num)]
  norm_num

/-- Dropping `k + 1` bits of a mantissa by rounding half up moves the magnitude by at most half a last kept
place upwards, and by less than that downwards. -/
theorem magnitude_roundHalfUp (e : Int) (f w k : Nat) :
    magnitude e (roundHalfUp (2 ^ k) (k + 1) f) w - magnitude e f (w + (k + 1)) ≤ (2 : ℚ) ^ (e - w - 1) ∧
    magnitude e f (w + (k + 1)) - magnitude e (roundHalfUp (2 ^ k) (k + 1) f) w < (2 : ℚ) ^ (e - w - 1) := by
  have hle : roundHalfUp (2 ^ k) (k + 1) f * 2 ^ (k + 1) ≤ f + 2 ^ k := by
    rw [roundHalfUp_eq_div]
    exact Nat.div_mul_le_self _ _
  have hlt : f + 2 ^ k < roundHalfUp (2 ^ k) (k + 1) f * 2 ^ (k + 1) + 2 ^ (k + 1) := by
    rw [roundHalfUp_eq_div]
    exact Nat.lt_div_mul_add (by positivity)
  rw [← magnitude_widen e _ w (k + 1), magnitude_eq_mul, magnitude_eq_mul]
  generalize roundHalfUp (2 ^ k) (k + 1) f * 2 ^ (k + 1) = r at *
  have hhalf : (2 : ℚ) ^ (e - w - 1) = 2 ^ k * 2 ^ (e - (w + (k + 1) : Nat)) := by
    rw [← zpow_natCast, ← zpow_add₀ (by norm_num)]
    congr 1
    push_cast
    ring
  have hv : (0 : ℚ) < 2 ^ (e - (w + (k + 1) : Nat)) := by positivity
  have hleq : (r : ℚ) ≤ f + 2 ^ k := by exact_mod_cast hle
  have hltq : (f : ℚ) < r + 2 ^ k := by
    have : f < r + 2 ^ k := by rw [pow_succ] at hlt; omega
    exact_mod_cast this
  rw [hhalf, ← sub_mul, ← sub_mul, mul_le_mul_iff_left₀ hv, mul_lt_mul_iff_left₀ hv]
  push_cast
  exact ⟨by linarith, by linarith⟩

/-- A multiple at most half a unit above `a`, or less than half a unit below it, is the nearest one, ties going
up. -/
theorem nearestTiesUp_of_sub_le {u a : ℚ} {j : ℕ} (hu : 0 < u) (hup : j * u - a ≤ u / 2)
    (hdown : a - j * u < u / 2) : NearestTiesUp u a (j * u) := by
  refine ⟨⟨j, rfl⟩, fun k hk => ?_⟩
  have hdist : |j * u - a| ≤ u / 2 := abs_le.mpr ⟨by linarith, hup⟩
  rcases Nat.lt_trichotomy k j with hlt | rfl | hgt
  · have hstep : (k : ℚ) * u + u ≤ j * u := by
      have : (k : ℚ) + 1 ≤ j := by exact_mod_cast hlt
      nlinarith
    have hfar : u / 2 ≤ |(k : ℚ) * u - a| := by
      rw [abs_sub_comm]
      exact le_trans (by linarith) (le_abs_self _)
    rcases (hdist.trans hfar).lt_or_eq with h | h
    · exact .inl h
    · exact .inr ⟨h, by linarith⟩
  · exact absurd rfl hk
  · have hstep : (j : ℚ) * u + u ≤ k * u := by
      have : (j : ℚ) + 1 ≤ k := by exact_mod_cast hgt
      nlinarith
    exact .inl (lt_of_le_of_lt hdist (lt_of_lt_of_le (by linarith) (le_abs_self _)))

/-- A success of `ENC_F64` denotes the double's exponent with its rounded mantissa, carried or not. -/
theorem packedValue_of_encodeF64_ok {d : Binary64} {p : Packed} (h0 : (F64.exp d).toNat ≠ 0)
    (h : encodeF64 d = .ok p) :
    packedValue p
      = signFactor (F64.sign d) * magnitude ((F64.exp d).toNat - 1023) (roundedMan64 d) 39 := by
  rcases encodeF64_ok h with ⟨hz, -⟩ | ⟨hlo, -, -, hs, he, hm⟩ | ⟨hlo, -, hc, hs, he, hm⟩
  · exact absurd hz h0
  · have hexp : ((Packed.exp p).toNat : Int) - 129 = (F64.exp d).toNat - 1023 := by omega
    rw [packedValue_normal (packed_exp_ne_zero_iff.mpr (by omega)), hs, hm, hexp]
  · have hexp : ((Packed.exp p).toNat : Int) - 129 = (F64.exp d).toNat - 1023 + 1 := by omega
    rw [packedValue_normal (packed_exp_ne_zero_iff.mpr (by omega)), hs, hm, hexp, hc, magnitude_carry]

/-- The exponent of a success of `ENC_F64` is the operand's rebiased, or one more where the mantissa rounds to
`2^39`; it is never 0. -/
theorem encodeF64_ok_exp {d : Binary64} {p : Packed} (h0 : (F64.exp d).toNat ≠ 0)
    (h : encodeF64 d = .ok p) :
    1 ≤ (Packed.exp p).toNat ∧
      ((Packed.exp p).toNat + 894 = (F64.exp d).toNat ∨
        ((Packed.exp p).toNat + 893 = (F64.exp d).toNat ∧ roundedMan64 d = 2 ^ 39)) := by
  rcases encodeF64_ok h with ⟨hz, -⟩ | ⟨hlo, -, -, -, he, -⟩ | ⟨hlo, -, hc, -, he, -⟩
  · exact absurd hz h0
  · exact ⟨by omega, .inl he⟩
  · exact ⟨by omega, .inr ⟨he, hc⟩⟩

/-- Settles O51: the word denotes the operand with its mantissa rounded half up (`packedValue_of_encodeF64_ok`),
which is off by at most half the last place of the operand's exponent (`magnitude_roundHalfUp`); the last place
of the word weighs at least as much. -/
theorem encF64RoundsToNearestTiesAway : Obligations.EncF64RoundsToNearestTiesAway := by
  unfold Obligations.EncF64RoundsToNearestTiesAway
  intro d p h0 h
  obtain ⟨hpe, hexp⟩ := encodeF64_ok_exp h0 h
  have hp := packed_exp_ne_zero_iff.mpr hpe
  have hpv := packedValue_of_encodeF64_ok h0 h
  have habs : |packedValue p| = magnitude ((F64.exp d).toNat - 1023) (roundedMan64 d) 39 := by
    rw [hpv, abs_mul, abs_signFactor, one_mul, abs_of_nonneg (magnitude_nonneg _ _ _)]
  obtain ⟨hup, hdown⟩ := magnitude_roundHalfUp ((F64.exp d).toNat - 1023) (F64.man d).toNat 39 12
  rw [show ((F64.exp d).toNat : Int) - 1023 - (39 : Nat) - 1 = (F64.exp d).toNat - 1023 - 40 by omega]
    at hup hdown
  refine ⟨?error, ?nearest, roundedMan64_eq_div d ▸ hexp⟩
  case error =>
    rw [hpv, normalValueF64, ← mul_sub, abs_mul, abs_signFactor, one_mul]
    exact abs_le.mpr ⟨by linarith, hup⟩
  case nearest =>
    have hhalf : (2 : ℚ) ^ (((F64.exp d).toNat : ℤ) - 1023 - 40)
        ≤ 2 ^ (((Packed.exp p).toNat : ℤ) - 129 - 39) / 2 := by
      rw [div_eq_mul_inv, ← zpow_sub_one₀ two_ne_zero]
      exact zpow_le_zpow_right₀ (by norm_num) (by omega)
    rw [← abs_normalValueF64, ← habs, abs_packedValue hp, magnitude_eq_mul] at hup hdown
    rw [abs_packedValue hp, magnitude_eq_mul]
    exact nearestTiesUp_of_sub_le (by positivity) (hup.trans hhalf) (hdown.trans_le hhalf)

end Sys2Proof.Machine

/-! PROOFS. The decoder's answers (41_decoder.md): O29 to O33 and O52. -/

namespace Sys2Proof.Machine

/-! ## The answers by exponent field (R131, R132) -/

theorem exec_decF64 (p : Packed) (s : State) :
    exec (.decF64 p) s = .next { s with
      decResponses := s.decResponses ++ [decResponse p (.f64 (decodeF64 p))] } := rfl

theorem exec_decF32 (p : Packed) (s : State) :
    exec (.decF32 p) s = .next { s with
      decResponses := s.decResponses ++ [decResponse p (.f32 (decodeF32 p))] } := rfl

/-- Settles O29: the decoder adds `decodeF64 p`, which is +0 for a zero pattern and otherwise the double whose
fields `decodeF64_fields` gives. -/
theorem decF64AnswersEveryWord : Obligations.DecF64AnswersEveryWord := by
  unfold Obligations.DecF64AnswersEveryWord
  refine ⟨decode_requestOf_10, fun p s => ?_⟩
  rw [exec_decF64]
  refine ⟨fun h => ?zero, fun h => ?normal⟩
  case zero => rw [decodeF64_zero h]
  case normal =>
    obtain ⟨d, hd, hf⟩ := decodeF64_fields h
    exact ⟨d, by rw [hd], hf⟩

theorem roundedMan32_eq_div (p : Packed) :
    roundedMan32 p = ((Packed.man p).toNat + 2 ^ 15) / 2 ^ 16 := roundHalfUp_eq_div _ _ _

/-- Settles O30: the decoder adds `decodeF32 p`, which the lemmas about it give range by range; from packed
exponent 3 on, `decodeF32_fields` tells a carry from none by the rounded mantissa. -/
theorem decF32AnswersByExponent : Obligations.DecF32AnswersByExponent := by
  unfold Obligations.DecF32AnswersByExponent
  refine ⟨decode_requestOf_11, fun p s => ?_⟩
  rw [exec_decF32, ← roundedMan32_eq_div]
  refine ⟨fun h => ?zero, fun h => ?underflow, fun h hm => ?round, fun h hm => ?carry⟩
  case zero => rw [decodeF32_zero h]
  case underflow =>
    rw [← BitVec.toNat_inj, ← BitVec.toNat_inj, BitVec.toNat_ofNat, BitVec.toNat_ofNat] at h
    rw [decodeF32_underflow (by omega) (by omega)]
  case round =>
    obtain ⟨x, hx, hs, hf⟩ := decodeF32_fields h
    exact ⟨x, by rw [hx], hs, by omega, by omega⟩
  case carry =>
    obtain ⟨x, hx, hs, hf⟩ := decodeF32_fields h
    exact ⟨x, by rw [hx], hs, by omega, by omega⟩

/-! ## The side outputs (R130, R133) -/

theorem packed_exp_eq_zero_iff (p : Packed) : Packed.exp p = 0#8 ↔ p.toNat % 256 = 0 := by
  rw [← BitVec.toNat_inj, packed_exp_toNat]
  rfl

theorem classify_eq_normal_iff (p : Packed) : classify p = .normal ↔ Packed.exp p ≠ 0#8 := by
  refine ⟨fun h h0 => ?_, classify_normal⟩
  rw [classify_zero h0] at h
  cases h

theorem classify_bit (p : Packed) : (classify p).bit = if Packed.exp p = 0#8 then 0#1 else 1#1 := by
  unfold classify
  split <;> rfl

/-- Settles O31: either operation adds a `decResponse` of its operand, whose side outputs do not depend on the
result put beside them. -/
theorem decoderGivesFieldsAndClass : Obligations.DecoderGivesFieldsAndClass := by
  unfold Obligations.DecoderGivesFieldsAndClass
  intro i p s hi
  have hexec : ∃ r : DecResult,
      exec i s = .next { s with decResponses := s.decResponses ++ [decResponse p r] } := by
    rcases hi with rfl | rfl
    · exact ⟨_, exec_decF64 p s⟩
    · exact ⟨_, exec_decF32 p s⟩
  obtain ⟨r, hr⟩ := hexec
  simp only [ne_eq, ← packed_exp_eq_zero_iff]
  exact ⟨decResponse p r, hr, rfl, rfl, rfl, classify_eq_zero_iff p, classify_eq_normal_iff p,
    classify_bit p⟩

/-! ## The range of the results (R135) -/

/-- Settles O32: a double by the fields of `DEC_F64`'s answer, a float by the soundness of `DEC_F32`'s. -/
theorem decoderResultsAreZeroOrNormal : Obligations.DecoderResultsAreZeroOrNormal := by
  unfold Obligations.DecoderResultsAreZeroOrNormal
  refine fun p => ⟨?double, fun x hx => ?float⟩
  case double =>
    by_cases h : Packed.exp p = 0#8
    · exact ⟨_, decodeF64_zero h, .inl rfl⟩
    · obtain ⟨d, hd, hs, he, hm⟩ := decodeF64_fields h
      have h0 := packed_exp_ne_zero_iff.mp h
      have hlt := (Packed.exp p).isLt
      exact ⟨d, hd, .inr ⟨hs, by omega, by omega, by omega⟩⟩
  case float =>
    obtain ⟨-, hsound⟩ : DecResponseSound (decResponse p (.f32 (.ok x))) := hx ▸ decodeF32_sound p
    by_cases h : Packed.exp p = 0#8
    · exact .inl ((if_pos h).mp hsound)
    · obtain ⟨-, -, hrange⟩ := (if_neg h).mp hsound
      exact .inr hrange

/-! ## Narrowing a double to a float (R139) -/

/-- The carry clears the mantissa, which is also what cutting `2^23` to 23 bits gives. -/
theorem f32_man_floatOfRounded (s : BitVec 1) (e : Int) (m : Nat) :
    F32.man (floatOfRounded s e m) = BitVec.ofNat 23 m := by
  unfold floatOfRounded
  split
  case isTrue h => rw [f32_man_assemble, h]; rfl
  case isFalse => rw [f32_man_assemble]

theorem f32_exp_floatOfRounded (s : BitVec 1) (e : Int) (m : Nat) :
    F32.exp (floatOfRounded s e m) = BitVec.ofInt 8 (if m = 2 ^ 23 then e + 1 else e) := by
  unfold floatOfRounded
  split <;> rw [f32_exp_assemble]

/-- One sign and exponent with two rounded mantissas give one float only where the mantissas are the same: the
mantissas 0 and `2^23` differ in the exponent field. -/
theorem floatOfRounded_inj {s : BitVec 1} {e : Int} {m n : Nat} (hm : m ≤ 2 ^ 23) (hn : n ≤ 2 ^ 23) :
    floatOfRounded s e m = floatOfRounded s e n ↔ m = n := by
  refine ⟨fun h => ?_, fun h => by rw [h]⟩
  have hman := congrArg (fun x => (F32.man x).toNat) h
  have hexp := congrArg (fun x => (F32.exp x).toNat) h
  simp only [f32_man_floatOfRounded, BitVec.toNat_ofNat] at hman
  simp only [f32_exp_floatOfRounded, BitVec.toNat_ofInt] at hexp
  split_ifs at hexp with hmc hnc hnc
  · rw [hmc, hnc]
  · omega
  · omega
  · omega

/-- `DEC_F32` puts the rounded mantissa under the rebiased exponent, as the narrowings of a double do. -/
theorem decodeF32_eq_floatOfRounded {p : Packed} (h : 3 ≤ (Packed.exp p).toNat) :
    decodeF32 p = .ok (floatOfRounded (Packed.sign p) ((Packed.exp p).toNat - 2) (roundedMan32 p)) := by
  unfold floatOfRounded
  split
  case isTrue hc => exact decodeF32_carry h hc
  case isFalse hc => exact decodeF32_round h hc

/-- The 13 zeros that `DEC_F64` puts below a packed mantissa do not change what the mantissa rounds to. -/
theorem roundHalfUp_widen (m : Nat) :
    roundHalfUp (2 ^ 28) 29 (m * 2 ^ 13) = roundHalfUp ROUND32 SHIFT32 m := by
  rw [roundHalfUp_eq_div, roundHalfUp_eq_div]
  show (m * 2 ^ 13 + 2 ^ 28) / 2 ^ 29 = (m + 2 ^ 15) / 2 ^ 16
  omega

/-- The two roundings differ exactly on a tie whose kept mantissa is even. -/
theorem roundHalfUp_ne_roundNearestEven_iff (f : Nat) :
    roundHalfUp (2 ^ 28) 29 f ≠ roundNearestEven f ↔ f % 2 ^ 29 = 2 ^ 28 ∧ f / 2 ^ 29 % 2 = 0 := by
  rw [roundHalfUp_eq_div, roundNearestEven]
  split_ifs with habove htie
  · omega
  · omega
  · omega

theorem roundNearestEven_le {f : Nat} (hf : f < 2 ^ 52) : roundNearestEven f ≤ 2 ^ 23 := by
  rw [roundNearestEven]
  split_ifs <;> omega

/-- Settles O33: all three floats are the sign and rebiased exponent of `p` with a rounded mantissa, so the
question is where the mantissas differ (`roundHalfUp_ne_roundNearestEven_iff`). -/
theorem decodersAgreeUpToHalfUpNarrowing : Obligations.DecodersAgreeUpToHalfUpNarrowing := by
  unfold Obligations.DecodersAgreeUpToHalfUpNarrowing
  intro p h
  have hp : Packed.exp p ≠ 0#8 := packed_exp_ne_zero_iff.mpr (by omega)
  obtain ⟨d, hd, hs, he, hm⟩ := decodeF64_fields hp
  have hexp : ((F64.exp d).toNat : Int) - 896 = (Packed.exp p).toNat - 2 := by omega
  have hman : roundHalfUp (2 ^ 28) 29 (F64.man d).toNat = roundedMan32 p := by rw [hm, roundHalfUp_widen]
  have hup : decodeF32 p = .ok (narrowHalfUp d) := by
    rw [decodeF32_eq_floatOfRounded h, narrowHalfUp, hs, hexp, hman]
  refine ⟨d, hd, hup, ?_⟩
  have hle : roundHalfUp (2 ^ 28) 29 (F64.man d).toNat ≤ 2 ^ 23 := hman ▸ roundedMan32_le p
  calc decodeF32 p ≠ .ok (narrowNearestEven d)
      ↔ roundHalfUp (2 ^ 28) 29 (F64.man d).toNat ≠ roundNearestEven (F64.man d).toNat := by
        rw [hup, ne_eq, Result.ok.injEq, narrowHalfUp, narrowNearestEven,
          floatOfRounded_inj hle (roundNearestEven_le (F64.man d).isLt)]
    _ ↔ (F64.man d).toNat % 2 ^ 29 = 2 ^ 28 ∧ (F64.man d).toNat / 2 ^ 29 % 2 = 0 :=
        roundHalfUp_ne_roundNearestEven_iff _
    _ ↔ (Packed.man p).toNat % 2 ^ 16 = 0x8000 ∧ (Packed.man p).toNat / 2 ^ 16 % 2 = 0 := by
        rw [hm]
        omega

/-! ## The rounding law (R138) -/

/-- From packed exponent 3 on `DEC_F32` gives the float that denotes the word's exponent with its rounded
mantissa, carried or not. -/
theorem decodeF32_value {p : Packed} (h : 3 ≤ (Packed.exp p).toNat) :
    ∃ x, decodeF32 p = .ok x ∧ F32.sign x = Packed.sign p ∧
      normalValueF32 x
        = signFactor (Packed.sign p) * magnitude ((Packed.exp p).toNat - 129) (roundedMan32 p) 23 := by
  obtain ⟨x, hx, hs, ⟨-, he, hm⟩ | ⟨hc, he, hm⟩⟩ := decodeF32_fields h
  · have hexp : ((F32.exp x).toNat : Int) - 127 = (Packed.exp p).toNat - 129 := by omega
    refine ⟨x, hx, hs, ?_⟩
    rw [normalValueF32, hs, hm, F32_BIAS, hexp]
  · have hexp : ((F32.exp x).toNat : Int) - 127 = (Packed.exp p).toNat - 129 + 1 := by omega
    refine ⟨x, hx, hs, ?_⟩
    rw [normalValueF32, hs, hm, F32_BIAS, hexp, hc, magnitude_carry]

/-- Settles O52: the float denotes the operand with its mantissa rounded half up (`decodeF32_value`), which is
off by at most half a last kept place upwards and less downwards (`magnitude_roundHalfUp`). -/
theorem decF32RoundsToNearestTiesAway : Obligations.DecF32RoundsToNearestTiesAway := by
  unfold Obligations.DecF32RoundsToNearestTiesAway
  intro p h
  have hp : Packed.exp p ≠ 0#8 := packed_exp_ne_zero_iff.mpr (by omega)
  obtain ⟨x, hx, hs, hv⟩ := decodeF32_value h
  obtain ⟨hup, hdown⟩ := magnitude_roundHalfUp ((Packed.exp p).toNat - 129) (Packed.man p).toNat 23 15
  refine ⟨x, hx, hs, ?error, ?nearest⟩
  case error =>
    rw [show ((Packed.exp p).toNat : ℤ) - 129 - 24 = (Packed.exp p).toNat - 129 - (23 : Nat) - 1 by omega,
      hv, packedValue_normal hp, ← mul_sub, abs_mul, abs_signFactor, one_mul]
    exact abs_le.mpr ⟨by linarith, hup⟩
  case nearest =>
    rw [zpow_sub_one₀ two_ne_zero, ← div_eq_mul_inv, magnitude_eq_mul _ (roundHalfUp _ _ _)] at hup hdown
    rw [hv, abs_mul, abs_signFactor, one_mul, abs_of_nonneg (magnitude_nonneg _ _ _), abs_packedValue hp,
      magnitude_eq_mul _ (roundedMan32 p)]
    exact nearestTiesUp_of_sub_le (by positivity) hup hdown

end Sys2Proof.Machine

/-! PROOFS. The constants and the laws of 42_constants_and_laws.md: O26 to O28, O45 to O48 and O53. -/

namespace Sys2Proof.Machine

/-! ## Boundary inputs of the encoder (R167 to R169) -/

/-- Settles O26: 39 kept ones and a discarded part of at least half round to `2^39`, the carry case of
`ENC_F64`. -/
theorem boundaryRoundingCarries : Obligations.BoundaryRoundingCarries := by
  unfold Obligations.BoundaryRoundingCarries
  intro d hones hhalf
  have hc : roundedMan64 d = 2 ^ 39 := by
    rw [roundedMan64_eq_div]
    omega
  exact ⟨fun h0 h => encodeF64_carry h0 h hc, fun h => encodeF64_carry_overflow h hc⟩

/-- Settles O27: the exponent field alone decides, and in the three named doubles it is all ones. -/
theorem nonFiniteInputIsUnrepresentable : Obligations.NonFiniteInputIsUnrepresentable := by
  unfold Obligations.NonFiniteInputIsUnrepresentable
  exact ⟨fun _ => encodeF64_nonFinite, fun _ => encodeF32_nonFinite, encodeF64_nonFinite (by decide),
    encodeF64_nonFinite (by decide), encodeF64_nonFinite (by decide)⟩

theorem exp_canonicalZero : Packed.exp canonicalZero = 0#8 := by decide

/-- Settles O28: each of the zeros has an exponent field of zero, which alone decides in either direction. -/
theorem zerosAreCanonicalised : Obligations.ZerosAreCanonicalised := by
  unfold Obligations.ZerosAreCanonicalised
  exact ⟨encodeF64_zero (by decide), encodeF64_zero (by decide), by decide, encodeF32_zero (by decide),
    encodeF32_zero (by decide), decodeF64_zero exp_canonicalZero, decodeF32_zero exp_canonicalZero⟩

/-! ## Round trips (R164 to R166) -/

/-- A packed mantissa whose low 16 bits are zero loses nothing in `DEC_F32`. -/
theorem roundedMan32_of_man {p : Packed} {m : Nat} (h : (Packed.man p).toNat = m * 2 ^ 16) :
    roundedMan32 p = m := by
  rw [roundedMan32_eq_div, h]
  omega

/-- `DEC_F32` undoes `ENC_F32` on the floats that pack to a nonzero word. -/
theorem decodeF32_encodeF32 {x : Binary32} (h0 : 1 ≤ (F32.exp x).toNat) (h : (F32.exp x).toNat ≤ 253) :
    ∃ p, encodeF32 x = .ok p ∧ decodeF32 p = .ok x := by
  obtain ⟨p, hp, hs, he, hm⟩ := encodeF32_fields h0 h
  have hr := roundedMan32_of_man hm
  obtain ⟨y, hy, hsy, ⟨-, hey, hmy⟩ | ⟨hc, -, -⟩⟩ := decodeF32_fields (p := p) (by omega)
  · have hyx : y = x :=
      f32_ext (hsy.trans hs) (BitVec.eq_of_toNat_eq (by omega)) (BitVec.eq_of_toNat_eq (hmy.trans hr))
    exact ⟨p, hp, hyx ▸ hy⟩
  · have hlt := (F32.man x).isLt
    omega

/-- Settles O46: exponent fields 1 to 253 by `decodeF32_encodeF32`, the others by the encoder's own cases. -/
theorem floatRoundTripIsExact : Obligations.FloatRoundTripIsExact := by
  unfold Obligations.FloatRoundTripIsExact
  exact fun x => ⟨decodeF32_encodeF32,
    fun h => ⟨canonicalZero, encodeF32_zero h, decodeF32_zero exp_canonicalZero⟩,
    encodeF32_overflow, encodeF32_nonFinite⟩

/-- `ENC_F64` undoes `DEC_F64` on the words that are no zero pattern: the 13 mantissa bits it drops are the
zeros that `DEC_F64` put there. -/
theorem encodeF64_of_decodeF64 {p : Packed} {d : Binary64} (h : Packed.exp p ≠ 0#8)
    (hd : decodeF64 p = .ok d) : encodeF64 d = .ok p := by
  obtain ⟨d', hd', hs, he, hm⟩ := decodeF64_fields h
  obtain rfl : d' = d := Result.ok.inj (hd'.symm.trans hd)
  have h0 := packed_exp_ne_zero_iff.mp h
  have hlt := (Packed.exp p).isLt
  have hr := roundedMan64_of_man hm
  obtain ⟨q, hq, hsq, heq, hmq⟩ :=
    encodeF64_round_fields (d := d') (by omega) (by omega) (hr ▸ (Packed.man p).isLt)
  have hqp : q = p :=
    packed_ext (hsq.trans hs) (BitVec.eq_of_toNat_eq (hmq.trans hr)) (BitVec.eq_of_toNat_eq (by omega))
  exact hqp ▸ hq

/-- A normal double comes back from its packed word exactly when `ENC_F64` had only zeros to drop. -/
theorem decodeF64_encodeF64_eq_iff {d d' : Binary64} {p : Packed} (h0 : (F64.exp d).toNat ≠ 0)
    (hp : encodeF64 d = .ok p) (hd : decodeF64 p = .ok d') :
    d' = d ↔ (F64.man d).toNat % 2 ^ 13 = 0 := by
  obtain ⟨hpe, -⟩ := encodeF64_ok_exp h0 hp
  obtain ⟨d₁, hd₁, hs', he', hm'⟩ := decodeF64_fields (packed_exp_ne_zero_iff.mpr hpe)
  obtain rfl : d₁ = d' := Result.ok.inj (hd₁.symm.trans hd)
  refine ⟨fun h => by rw [← h]; omega, fun h => ?_⟩
  have hr : roundedMan64 d = (F64.man d).toNat / 2 ^ 13 := roundedMan64_of_man (by omega)
  have hlt := (F64.man d).isLt
  rcases encodeF64_ok hp with ⟨hz, -⟩ | ⟨-, -, -, hs, he, hm⟩ | ⟨-, -, hc, -⟩
  · exact absurd hz h0
  · exact f64_ext (hs'.trans hs) (BitVec.eq_of_toNat_eq (by omega)) (BitVec.eq_of_toNat_eq (by omega))
  · omega

/-- Settles O47: a double of exponent field 0 packs to the canonical zero, and with it every part is about
+0.0; any other packs to a word that is no zero pattern, which comes back (`encodeF64_of_decodeF64`), as the same
double exactly where `decodeF64_encodeF64_eq_iff` says. -/
theorem doubleRoundTripIsStable : Obligations.DoubleRoundTripIsStable := by
  unfold Obligations.DoubleRoundTripIsStable
  intro d p hp
  by_cases h0 : (F64.exp d).toNat = 0
  · obtain rfl : canonicalZero = p := Result.ok.inj ((encodeF64_zero h0).symm.trans hp)
    exact ⟨0#64, decodeF64_zero exp_canonicalZero, encodeF64_zero (by decide), by rw [eq_comm]; simp [h0]⟩
  · have hpe := packed_exp_ne_zero_iff.mpr (encodeF64_ok_exp h0 hp).1
    have hd := decodeF64_normal hpe
    have hne : d ≠ 0#64 := fun h => h0 (h ▸ by decide)
    have hlow : (F64.man d).toNat % 2 ^ 13 = d.toNat % 2 ^ 13 := by
      rw [f64_man_toNat]
      omega
    refine ⟨_, hd, encodeF64_of_decodeF64 hpe hd, ?_⟩
    rw [decodeF64_encodeF64_eq_iff h0 hp hd, hlow]
    simp [hne, h0]

theorem decodeF32_MAX : decodeF32 MAX = .ok 0x7F000000#32 := by decide

/-- Settles O48: a zero pattern goes to +0.0 and from there to the canonical zero, any other word comes back
by `encodeF64_of_decodeF64`; the float path fails by the cases of `DEC_F32` and `ENC_F32`. -/
theorem decodeThenEncodeCanonicalises : Obligations.DecodeThenEncodeCanonicalises := by
  unfold Obligations.DecodeThenEncodeCanonicalises
  refine ⟨fun p => ?double, fun p h => ?float, decodeF32_MAX, encodeF32_overflow (by decide)⟩
  case double =>
    split
    case isTrue h => exact ⟨0#64, decodeF64_zero h, encodeF64_zero (by decide)⟩
    case isFalse h => exact ⟨_, decodeF64_normal h, encodeF64_of_decodeF64 h (decodeF64_normal h)⟩
  case float => rcases h with h | h <;> exact decodeF32_underflow (by simp [h]) (by simp [h])

/-! ## The order of magnitudes -/

@[simp] theorem magnitude_zero (e : Int) (w : Nat) : magnitude e 0 w = (2 : ℚ) ^ e := by
  simp [magnitude]

/-- A smaller exponent makes a smaller magnitude, whatever the mantissas. -/
theorem magnitude_lt_of_exp_lt {e e' : Int} {m w : Nat} (m' : Nat) (hm : m < 2 ^ w) (he : e < e') :
    magnitude e m w < magnitude e' m' w :=
  calc magnitude e m w < (2 : ℚ) ^ (e + 1) := magnitude_lt e hm
    _ ≤ (2 : ℚ) ^ e' := zpow_le_zpow_right₀ (by norm_num) he
    _ ≤ magnitude e' m' w := le_magnitude e' m' w

/-- Magnitudes of one width are ordered by the exponent first and by the mantissa within one exponent. -/
theorem magnitude_lt_magnitude_iff {e e' : Int} {m m' w : Nat} (hm : m < 2 ^ w) (hm' : m' < 2 ^ w) :
    magnitude e m w < magnitude e' m' w ↔ e < e' ∨ (e = e' ∧ m < m') := by
  rcases lt_trichotomy e e' with he | rfl | he
  · exact ⟨fun _ => .inl he, fun _ => magnitude_lt_of_exp_lt m' hm he⟩
  · rw [magnitude_eq_mul, magnitude_eq_mul, mul_lt_mul_iff_left₀ (by positivity), Nat.cast_lt]
    omega
  · exact ⟨fun h => absurd h (magnitude_lt_of_exp_lt m hm' he).not_gt, fun h => by omega⟩

/-- A magnitude is at least a power of two exactly when its exponent is. -/
theorem two_zpow_le_magnitude_iff {k e : Int} {m w : Nat} (hm : m < 2 ^ w) :
    (2 : ℚ) ^ k ≤ magnitude e m w ↔ k ≤ e := by
  rw [← magnitude_zero k w, ← not_lt, magnitude_lt_magnitude_iff hm (by positivity)]
  omega

/-! ## The accepted ranges (R172) -/

/-- The normal doubles that `ENC_F64` packs to a nonzero word, by their fields. -/
theorem encodeF64_nonzero_iff {d : Binary64} (h0 : 1 ≤ (F64.exp d).toNat) :
    (∃ p, encodeF64 d = .ok p ∧ p ≠ 0#48) ↔
      895 ≤ (F64.exp d).toNat ∧ ((F64.exp d).toNat < 1149 ∨
        ((F64.exp d).toNat = 1149 ∧ (F64.man d).toNat < 2 ^ 52 - 2 ^ 12)) := by
  have hr := roundedMan64_eq_div d
  have hle := roundedMan64_le d
  constructor
  · rintro ⟨p, hp, -⟩
    rcases encodeF64_ok hp with ⟨hz, -⟩ | ⟨hlo, hhi, hm, -⟩ | ⟨hlo, hhi, -⟩
    · omega
    · omega
    · omega
  · rintro ⟨hlo, hhi⟩
    by_cases hc : roundedMan64 d = 2 ^ 39
    · obtain ⟨p, hp, -, he, -⟩ := encodeF64_carry_fields hlo (by omega) hc
      exact ⟨p, hp, ne_canonicalZero (by omega)⟩
    · obtain ⟨p, hp, -, he, -⟩ := encodeF64_round_fields hlo (by omega) (by omega)
      exact ⟨p, hp, ne_canonicalZero (by omega)⟩

/-- The normal floats that `ENC_F32` packs to a nonzero word. -/
theorem encodeF32_nonzero_iff {x : Binary32} (h0 : 1 ≤ (F32.exp x).toNat) :
    (∃ p, encodeF32 x = .ok p ∧ p ≠ 0#48) ↔ (F32.exp x).toNat ≤ 253 := by
  constructor
  · rintro ⟨p, hp, -⟩
    rcases encodeF32_ok hp with ⟨hz, -⟩ | ⟨-, hhi, -⟩
    · omega
    · exact hhi
  · intro hhi
    obtain ⟨p, hp, -, he, -⟩ := encodeF32_fields h0 hhi
    exact ⟨p, hp, ne_canonicalZero (by omega)⟩

/-- The words that `DEC_F32` decodes to a nonzero float. -/
theorem decodeF32_nonzero_iff (p : Packed) :
    (∃ x, decodeF32 p = .ok x ∧ x ≠ 0#32) ↔ 3 ≤ (Packed.exp p).toNat := by
  constructor
  · rintro ⟨x, hx, hne⟩
    by_contra hlt
    by_cases h : Packed.exp p = 0#8
    · exact hne (Result.ok.inj (hx.symm.trans (decodeF32_zero h)))
    · rw [decodeF32_underflow (packed_exp_ne_zero_iff.mp h) (by omega)] at hx
      cases hx
  · intro h
    obtain ⟨x, hx, -, hfields⟩ := decodeF32_fields h
    refine ⟨x, hx, ?_⟩
    rintro rfl
    have hz : (F32.exp 0#32).toNat = 0 := by decide
    omega

/-- The least magnitude that `ENC_F64` rejects with `Overflow`, as R172 writes it: at the top exponent, the
first mantissa that rounds to `2^39`. -/
theorem magnitude_overflow_bound :
    magnitude 126 (2 ^ 52 - 2 ^ 12) 52 = (2 : ℚ) ^ (127 : ℤ) - (2 : ℚ) ^ (86 : ℤ) := by
  unfold magnitude
  norm_num

/-- The value of a positive word put together from a nonzero exponent field and a mantissa. -/
theorem packedValue_pack {e : Int} {m : Nat} (h0 : 1 ≤ e) (h : e ≤ 255) (hm : m < 2 ^ 39) :
    packedValue (pack 0#1 e m) = magnitude (e - 129) m 39 := by
  obtain ⟨hs, he, hf⟩ := pack_fields 0#1 (by omega) h hm
  rw [packedValue_normal (packed_exp_ne_zero_iff.mpr (by omega)), hs, he, hf]
  simp [signFactor]

theorem packedValue_MAX : packedValue MAX = magnitude 126 (2 ^ 39 - 1) 39 :=
  packedValue_pack (by norm_num) (by norm_num) (by norm_num)

theorem packedValue_zero {p : Packed} (h : Packed.exp p = 0#8) : packedValue p = 0 := if_pos h

/-- A word of packed exponent 3 or more is one of magnitude `2^-126` or more. -/
theorem two_zpow_le_abs_packedValue_iff (p : Packed) :
    (2 : ℚ) ^ (-126 : ℤ) ≤ |packedValue p| ↔ 3 ≤ (Packed.exp p).toNat := by
  by_cases h : Packed.exp p = 0#8
  · rw [packedValue_zero h, h]
    norm_num
  · rw [abs_packedValue h, two_zpow_le_magnitude_iff (Packed.man p).isLt]
    omega

/-- No word exceeds `MAX` in magnitude, whose exponent and mantissa are the largest. -/
theorem abs_packedValue_le_MAX (p : Packed) : |packedValue p| ≤ packedValue MAX := by
  rw [packedValue_MAX]
  by_cases h : Packed.exp p = 0#8
  · rw [packedValue_zero h, abs_zero]
    exact magnitude_nonneg _ _ _
  · have he := (Packed.exp p).isLt
    have hm := (Packed.man p).isLt
    rw [abs_packedValue h, ← not_lt, magnitude_lt_magnitude_iff (by norm_num) hm]
    omega

/-- Settles O53: for each operation the fields that it accepts (`encodeF64_nonzero_iff`,
`encodeF32_nonzero_iff`, `decodeF32_nonzero_iff`) are those that the order of magnitudes puts in the range. -/
theorem acceptedRangesOfMagnitude : Obligations.AcceptedRangesOfMagnitude := by
  unfold Obligations.AcceptedRangesOfMagnitude
  refine ⟨fun d h0 _ => ?encF64, fun x h0 _ => ?encF32, fun p => ⟨?decF32,
    two_zpow_le_abs_packedValue_iff p, abs_packedValue_le_MAX p⟩⟩
  case encF64 =>
    have hm := (F64.man d).isLt
    rw [encodeF64_nonzero_iff h0, abs_normalValueF64, ← magnitude_overflow_bound,
      two_zpow_le_magnitude_iff hm, magnitude_lt_magnitude_iff hm (by norm_num)]
    omega
  case encF32 =>
    have hm := (F32.man x).isLt
    rw [encodeF32_nonzero_iff h0, abs_normalValueF32, two_zpow_le_magnitude_iff hm, ← not_le,
      two_zpow_le_magnitude_iff hm]
    omega
  case decF32 => rw [decodeF32_nonzero_iff, two_zpow_le_abs_packedValue_iff]

/-! ## The named constants (R160 to R163) -/

/-- R163: the gap above 1.0 is the weight of the lowest mantissa bit. -/
theorem epsilon_gap :
    packedValue 0x000000000181#48 - packedValue 0x000000000081#48 = (2 : ℚ) ^ (-39 : ℤ) := by
  have h1 : packedValue 0x000000000081#48 = magnitude 0 0 39 :=
    packedValue_pack (e := 129) (m := 0) (by norm_num) (by norm_num) (by norm_num)
  have h2 : packedValue 0x000000000181#48 = magnitude 0 1 39 :=
    packedValue_pack (e := 129) (m := 1) (by norm_num) (by norm_num) (by norm_num)
  rw [h1, h2]
  unfold magnitude
  norm_num

theorem packedValue_MIN : packedValue MIN = (2 : ℚ) ^ (-128 : ℤ) :=
  (packedValue_pack (by norm_num) (by norm_num) (by norm_num)).trans (magnitude_zero _ _)

theorem packedValue_EPSILON : packedValue EPSILON = (2 : ℚ) ^ (-39 : ℤ) :=
  (packedValue_pack (by norm_num) (by norm_num) (by norm_num)).trans (magnitude_zero _ _)

/-- R161's spelling of the value of `MAX`. -/
theorem magnitude_MAX :
    magnitude 126 (2 ^ 39 - 1) 39 = (2 : ℚ) ^ (126 : ℤ) * (2 - (2 : ℚ) ^ (-39 : ℤ)) := by
  unfold magnitude
  norm_num

/-- Settles O45: the words, bytes and decodings are computed; the values are those of `packedValue_pack`; the
doubles encode back because they are what `DEC_F64` gives (`encodeF64_of_decodeF64`). -/
theorem namedConstantsAreAsGiven : Obligations.NamedConstantsAreAsGiven := by
  unfold Obligations.NamedConstantsAreAsGiven
  have hmin : decodeF64 MIN = .ok 0x37F0000000000000#64 := by decide
  have hmax : decodeF64 MAX = .ok 0x47DFFFFFFFFFE000#64 := by decide
  have heps : decodeF64 EPSILON = .ok 0x3D80000000000000#64 := by decide
  refine ⟨⟨by decide, by decide, packedValue_MIN, hmin, by decide, by decide,
      encodeF64_of_decodeF64 (by decide) hmin⟩,
    ⟨by decide, by decide, packedValue_MAX.trans magnitude_MAX, hmax, decodeF32_MAX,
      encodeF64_of_decodeF64 (by decide) hmax⟩,
    ⟨by decide, by decide, packedValue_EPSILON, packedValue_EPSILON.trans epsilon_gap.symm, heps,
      by decide, encodeF64_of_decodeF64 (by decide) heps⟩⟩

end Sys2Proof.Machine

/-! PROOFS. Which operation raises which failure (60_exceptions.md R202): O35. -/

namespace Sys2Proof.Machine

/-- One response is not both a value and a failure (R11). -/
theorem ne_error_of_eq_ok {w : Nat} {a : Response w} {v : BitVec w} (h : a = .ok v) (k : ErrorKind) :
    a ≠ .error k := by
  rw [h]
  nofun

/-- `Overflow` of `ENC_F64`, by exponent alone or, at 1149, by the mantissas that round to `2^39`. -/
theorem encodeF64_overflow_of_fields {d : Binary64}
    (h : (1150 ≤ (F64.exp d).toNat ∧ (F64.exp d).toNat ≤ 2046) ∨
      ((F64.exp d).toNat = 1149 ∧ 2 ^ 52 - 2 ^ 12 ≤ (F64.man d).toNat)) :
    encodeF64 d = .error .overflow := by
  rcases h with ⟨hlo, hhi⟩ | ⟨he, hm⟩
  · exact encodeF64_overflow hlo hhi
  · have hr := roundedMan64_eq_div d
    have hlt := (F64.man d).isLt
    exact encodeF64_carry_overflow he (by omega)

/-- Every failure of `ENC_F64`: the fields outside the three failing sets are those of exponent 0 and those
that `encodeF64_nonzero_iff` shows to succeed. -/
theorem encodeF64_error_iff (d : Binary64) (k : ErrorKind) :
    encodeF64 d = .error k ↔
      (k = .unrepresentable ∧ (F64.exp d).toNat = 2047) ∨
      (k = .underflow ∧ 1 ≤ (F64.exp d).toNat ∧ (F64.exp d).toNat ≤ 894) ∨
      (k = .overflow ∧ ((1150 ≤ (F64.exp d).toNat ∧ (F64.exp d).toNat ≤ 2046) ∨
        ((F64.exp d).toNat = 1149 ∧ 2 ^ 52 - 2 ^ 12 ≤ (F64.man d).toNat))) := by
  constructor
  · intro h
    have hlt := (F64.exp d).isLt
    have hzero : (F64.exp d).toNat ≠ 0 := fun h0 => ne_error_of_eq_ok (encodeF64_zero h0) k h
    have hrange : ¬ (895 ≤ (F64.exp d).toNat ∧ ((F64.exp d).toNat < 1149 ∨
        ((F64.exp d).toNat = 1149 ∧ (F64.man d).toNat < 2 ^ 52 - 2 ^ 12))) := fun hr =>
      have ⟨_, hp, _⟩ := (encodeF64_nonzero_iff (by omega)).mpr hr
      ne_error_of_eq_ok hp k h
    by_cases hn : (F64.exp d).toNat = 2047
    · exact .inl ⟨Result.error.inj (h.symm.trans (encodeF64_nonFinite hn)), hn⟩
    by_cases hu : (F64.exp d).toNat ≤ 894
    · exact .inr (.inl ⟨Result.error.inj (h.symm.trans (encodeF64_underflow (by omega) hu)), by omega, hu⟩)
    · have ho : (1150 ≤ (F64.exp d).toNat ∧ (F64.exp d).toNat ≤ 2046) ∨
          ((F64.exp d).toNat = 1149 ∧ 2 ^ 52 - 2 ^ 12 ≤ (F64.man d).toNat) := by omega
      exact .inr (.inr ⟨Result.error.inj (h.symm.trans (encodeF64_overflow_of_fields ho)), ho⟩)
  · rintro (⟨rfl, hn⟩ | ⟨rfl, hlo, hhi⟩ | ⟨rfl, ho⟩)
    · exact encodeF64_nonFinite hn
    · exact encodeF64_underflow hlo hhi
    · exact encodeF64_overflow_of_fields ho

/-- Every failure of `ENC_F32`; there is no `Underflow` among them. -/
theorem encodeF32_error_iff (x : Binary32) (k : ErrorKind) :
    encodeF32 x = .error k ↔
      (k = .unrepresentable ∧ (F32.exp x).toNat = 255) ∨ (k = .overflow ∧ (F32.exp x).toNat = 254) := by
  constructor
  · intro h
    have hlt := (F32.exp x).isLt
    have hzero : (F32.exp x).toNat ≠ 0 := fun h0 => ne_error_of_eq_ok (encodeF32_zero h0) k h
    have hrange : ¬ (F32.exp x).toNat ≤ 253 := fun hr =>
      ne_error_of_eq_ok (encodeF32_normal (by omega) hr) k h
    by_cases hn : (F32.exp x).toNat = 255
    · exact .inl ⟨Result.error.inj (h.symm.trans (encodeF32_nonFinite hn)), hn⟩
    · have ho : (F32.exp x).toNat = 254 := by omega
      exact .inr ⟨Result.error.inj (h.symm.trans (encodeF32_overflow ho)), ho⟩
  · rintro (⟨rfl, hn⟩ | ⟨rfl, ho⟩)
    · exact encodeF32_nonFinite hn
    · exact encodeF32_overflow ho

/-- `DEC_F64` answers every word (R131). -/
theorem decodeF64_ne_error (p : Packed) (k : ErrorKind) : decodeF64 p ≠ .error k := by
  by_cases h : Packed.exp p = 0#8
  · exact ne_error_of_eq_ok (decodeF64_zero h) k
  · exact ne_error_of_eq_ok (decodeF64_normal h) k

/-- Every failure of `DEC_F32` is an `Underflow`; the `Overflow` tests of R132 never fire (R134). -/
theorem decodeF32_error_iff (p : Packed) (k : ErrorKind) :
    decodeF32 p = .error k ↔ k = .underflow ∧ (Packed.exp p = 1#8 ∨ Packed.exp p = 2#8) := by
  have hexp : (Packed.exp p = 1#8 ∨ Packed.exp p = 2#8) ↔
      1 ≤ (Packed.exp p).toNat ∧ (Packed.exp p).toNat ≤ 2 := by bv_omega
  rw [hexp]
  constructor
  · intro h
    have hlo : 1 ≤ (Packed.exp p).toNat := packed_exp_ne_zero_iff.mp fun h0 =>
      ne_error_of_eq_ok (decodeF32_zero h0) k h
    have hhi : ¬ 3 ≤ (Packed.exp p).toNat := fun hr =>
      have ⟨_, hx, _⟩ := decodeF32_fields hr
      ne_error_of_eq_ok hx k h
    exact ⟨Result.error.inj (h.symm.trans (decodeF32_underflow hlo (by omega))), hlo, by omega⟩
  · rintro ⟨rfl, hlo, hhi⟩
    exact decodeF32_underflow hlo hhi

/-- Settles O35: each cell of R202's table is the lemma on the failures of its operation, read at one kind. -/
theorem failuresHappenExactlyWhenTabled : Obligations.FailuresHappenExactlyWhenTabled := by
  unfold Obligations.FailuresHappenExactlyWhenTabled
  refine ⟨fun d => ?encF64, fun x => ?encF32, decodeF64_ne_error, fun p => ?decF32⟩
  case encF64 => simp [encodeF64_error_iff]
  case encF32 => simp [encodeF32_error_iff]
  case decF32 => simp [decodeF32_error_iff]

end Sys2Proof.Machine

/-! PROOFS. Runs over the oldest requests and the reset input (70_reset_and_hazards.md R240, R244, R245):
O9 and O4. -/

namespace Sys2Proof.Machine

/-- Settles O9: the queue is its first `n` requests ahead of the others, and `run_requests_append`, an
induction over the requests performed, says what a run over the first of them leaves. -/
theorem runAnswersRequestsInOrder : Obligations.RunAnswersRequestsInOrder := by
  unfold Obligations.RunAnswersRequestsInOrder
  intro s n hs hn
  obtain ⟨rs, es, ds, b⟩ := s
  obtain rfl : b = false := hs
  have hrun := run_requests_append (rs.take n) (rs.drop n) es ds
  rwa [List.take_append_drop, List.length_take_of_le hn] at hrun

/-- Settles O4: no request can be taken while the input is asserted, and once it is released the step is
that of any machine out of reset. -/
theorem resetInputHoldsRequestsOff : Obligations.ResetInputHoldsRequestsOff := by
  unfold Obligations.ResetInputHoldsRequestsOff
  constructor
  · intro s hs
    exact step_of_none ((takeRequest_none_iff s).mpr (.inl hs))
  · intro s r rest hr
    exact stepPerformsDecodedRequest { s with resetAsserted := false } r rest rfl hr

end Sys2Proof.Machine

/-! PROOFS. A step with no request presented (93_implementation_defined.md U3, log entry 3): O3. -/

namespace Sys2Proof.Machine

/-- Settles O3: from an empty queue no request can be taken, whatever the reset input, and a step that takes
none answers the state it began in. -/
theorem stepWithoutRequestChangesNothing : Obligations.StepWithoutRequestChangesNothing := by
  unfold Obligations.StepWithoutRequestChangesNothing
  intro s hs
  have htake : takeRequest s = none := (takeRequest_none_iff s).mpr (.inr hs)
  exact step_of_none htake

end Sys2Proof.Machine
